-- ==== Sys2Proof/Word.lean ====
section
/-! DEFINITION. The word types of the block (spec 00_scope.md R10): a byte is 8 bits, a word is 32 bits. -/

namespace Sys2Proof

/-- A bus word, and a command word (R10, R100). -/
abbrev Word := BitVec 32

/-- One byte of a buffer (R10). -/
abbrev Byte := BitVec 8

/-- The contents of a big-number register or byte buffer: byte 0, the most significant, first (R11).
A well-formed state holds exactly B bytes in each (`State.wf`). -/
abbrev Buf := List Byte

end Sys2Proof
end

