-- ==== Sys2Proof/Config.lean ====
section
/-! DEFINITION. What a build of the block fixes (spec 00_scope.md R6), and the values the spec leaves open. -/

namespace Sys2Proof

/-- The build parameters of R6. A host cannot change them; `State.build` holds them so that every build is
covered by statements about all states (log 3). -/
structure Build where
  /-- B (BLOCK_SIZE): bytes in every big-number register and byte buffer. -/
  blockBytes : Nat
  /-- KEY_P0: reset value of KP. -/
  keyP0 : Nat
  /-- KEY_Q0: reset value of KQ. -/
  keyQ0 : Nat
  /-- KEY_E0: reset value of KE. -/
  keyE0 : Nat
  /-- BASE: bus address of register offset 0x0000. -/
  base : Nat
deriving DecidableEq, Repr

namespace Config

/-- BASE, which the spec leaves OPEN (R6, R70; 93_implementation_defined.md I9). No body: nothing can be
proved about its value. DESIGN CHOICE, safe (log 4). -/
opaque base : Nat

/-- The byte the RNG agent answers at a position of its stream, where the environment has not fixed it
(R210: "The model places no law on the values"). No body: a free value. DESIGN CHOICE, safe (log 5). -/
opaque rngByte : Nat → Byte

end Config

/-- The build this hardware is: the values R6 gives, BASE open. -/
def Build.hardware : Build where
  blockBytes := 128
  keyP0 := 1000000000000000003
  keyQ0 := 1000000000000000019
  keyE0 := 65537
  base := Config.base

end Sys2Proof
end

