-- ==== Sys2Proof/Syntax.lean ====
section
/-! DEFINITION. What the host can say to the block: the eight commands (spec 30_encoding.md R101), the bus
accesses (20_memory.md R70, R72), the events of the agents (10_state.md R30) and the host assembly
(30_encoding.md R116, R117). -/

namespace Sys2Proof

/-- The commands, one constructor per row of spec/opcode_table.json. Every operand is implicit (R104), so no
constructor has an argument. ENCODE and DECODE are `encodeMsg` and `decodeBlk`, to keep them apart from the
command-word functions `encode` and `decode`. -/
inductive Instr where
  | modexp
  | modinv
  | keygen
  | encodeMsg
  | decodeBlk
  | encrypt
  | decrypt
  | checkpad
deriving DecidableEq, Repr

/-- The registers that have a region of their own in the map (R71). -/
inductive BigReg where
  | opa | opb | opm | res | msg | blk | ct | kp | kq | ke | kn
deriving DecidableEq, Repr

/-- What a bus access does: read, or write a word. -/
inductive AccessOp where
  | read
  | write (v : Word)
deriving DecidableEq, Repr

/-- One bus access as a host issues it: which host (the block does not identify it, R211; log 22), a bus
address (R70), a size in bytes (R72) and what it does. -/
structure Access where
  host  : Nat
  addr  : Nat
  bytes : Nat
  op    : AccessOp
deriving DecidableEq, Repr

/-- The next move of an agent (R30). The RNG agent has no move of its own: it answers draws. -/
inductive Event where
  /-- HOST: the bus delivers one access. -/
  | access (a : Access)
  /-- ENGINE: the completion of the command in flight (R112). -/
  | engine
  /-- RESET (R240); `lost` are the accesses the bus delivers during the reset step (R241). -/
  | reset (lost : List Access)
  /-- HOST: a POLL loop (30_encoding.md R117) of the host `host` reads STATUS next. After a read that sees BUSY = 1 the
  loop's next read comes after as many further events as the first of `gaps` says, but before the host's own; with no
  gap left, after the ENGINE's turn (log 14). -/
  | poll (host : Nat) (gaps : List Nat)
deriving DecidableEq, Repr

/-- The event is a bus access, or a loop of bus accesses, of the host `h`. A reset is no host's, also where accesses of
`h` are lost in it: they are not performed (R241), and whether one could be a host's last access the spec does not say
(DESIGN CHOICE, log 24). -/
def Event.ofHost (h : Nat) (e : Event) : Bool :=
  match e with
  | .access a => a.host == h
  | .poll h' _ => h' == h
  | .engine | .reset _ => false

/-- A line of host assembly (R116) or a pseudo-instruction (R117). POLL and RUN carry the number of reads of
STATUS that see BUSY = 1 before the engine completes, if a command is in flight (log 14). -/
inductive HostLine where
  | wr (off : Nat) (v : Word)
  | rd (off : Nat)
  /-- `; text`. -/
  | comment (text : String)
  /-- The line `; (engine completion step)` of 95_test_vectors.md section 3, where the ENGINE moves. -/
  | completion
  | cmd (i : Instr)
  | poll (busyReads : Nat)
  | ldi (x : BigReg) (v : Nat)
  | ldb (x : BigReg) (bytes : List Byte)
  | rdb (x : BigReg)
  | run (i : Instr) (busyReads : Nat)
deriving DecidableEq, Repr

end Sys2Proof
end

