-- ==== Sys2Proof/WellFormed.lean ====
section
/-! DEFINITION. Which terms the spec admits: a configuration (00_scope.md R6), a bus access
(20_memory.md R70, R72), a line of host assembly (30_encoding.md R117). -/

namespace Sys2Proof

/-- A command has no operand field (R100, R104), so every constructor is well-formed. -/
def Instr.wf (i : Instr) : Bool :=
  match i with
  | .modexp | .modinv | .keygen | .encodeMsg | .decodeBlk | .encrypt | .decrypt | .checkpad => true

/-- The limits R6 sets on a configuration: B is a multiple of 4 from 4 to 4096, and every key input fits in
B bytes. "A model refuses a configuration that breaks this." -/
def Build.wf (b : Build) : Bool :=
  b.blockBytes % 4 == 0 && decide (4 ≤ b.blockBytes) && decide (b.blockBytes ≤ 4096) &&
    decide (b.keyP0 < 256 ^ b.blockBytes) && decide (b.keyQ0 < 256 ^ b.blockBytes) &&
    decide (b.keyE0 < 256 ^ b.blockBytes)

/-- The access is routed to the block: BASE <= A < BASE + 0x10000 (R70). -/
def Access.routed (b : Build) (a : Access) : Bool :=
  decide (b.base ≤ a.addr) && decide (a.addr < b.base + 0x10000)

/-- The register offset of a routed access, A - BASE (R70). -/
def Access.offset (b : Build) (a : Access) : Nat :=
  a.addr - b.base

/-- The interface contract of R72: a 32-bit access at an offset that is a multiple of 4. -/
def Access.wf (b : Build) (a : Access) : Bool :=
  a.bytes == 4 && a.offset b % 4 == 0

/-- An event a host may cause without leaving the contract: an access that is not the block's, or one that
meets R72; a completion; a reset, whose lost accesses are not performed (R241), so that one outside R72 among them does
not leave the contract either (DESIGN CHOICE, log 27). -/
def Event.inContract (b : Build) (e : Event) : Bool :=
  match e with
  | .access a => !a.routed b || a.wf b
  | .engine => true
  | .reset _ => true
  | .poll _ _ => true

/-- A line of host assembly that R116 and R117 give a meaning: an aligned offset of the window; an integer
that ToBE covers (R11). LDB takes data of any length (R117): what lies past the register is ignored (R75). -/
def HostLine.wf (b : Build) (l : HostLine) : Bool :=
  match l with
  | .wr off _ | .rd off => decide (off < 0x10000) && off % 4 == 0
  | .ldi _ v => decide (v < 256 ^ b.blockBytes)
  | .cmd i => i.wf
  | .run i _ => i.wf
  | .comment _ | .completion | .poll _ | .ldb _ _ | .rdb _ => true

end Sys2Proof
end

