-- ==== Sys2Proof/Decode.lean ====
section
/-! DEFINITION. The command word (spec 30_encoding.md R100 to R103): the decoder, total on all 2^32 words,
and after it the encoder. -/

namespace Sys2Proof

/-- Why a word is an illegal command (R103). All three give ERR_ILLEGAL at completion. -/
inductive DecodeError where
  /-- Some bit of 31:8 (the field RSV) is set. -/
  | reservedBits
  /-- OPC = 0x00, which "is illegal, not a no-op". -/
  | opcodeZero
  /-- OPC in 0x09 to 0xFF. -/
  | opcodeUnassigned
deriving DecidableEq, Repr

/-- The field OPC, bits 7:0 (R100). -/
def opcField (w : Word) : BitVec 8 :=
  w.extractLsb' 0 8

/-- The field RSV, bits 31:8 (R100). -/
def rsvField (w : Word) : BitVec 24 :=
  w.extractLsb' 8 24

/-- `Decode` of R102, with the name of the reason where R102 answers ILLEGAL. -/
def decode (w : Word) : Except DecodeError Instr :=
  if rsvField w = 0#24 then
    match (opcField w).toNat with
    | 0x00 => .error .opcodeZero
    | 0x01 => .ok .modexp
    | 0x02 => .ok .modinv
    | 0x03 => .ok .keygen
    | 0x04 => .ok .encodeMsg
    | 0x05 => .ok .decodeBlk
    | 0x06 => .ok .encrypt
    | 0x07 => .ok .decrypt
    | 0x08 => .ok .checkpad
    | _ => .error .opcodeUnassigned
  else .error .reservedBits

/-- The opcode of R101. -/
def opcodeOf (i : Instr) : BitVec 8 :=
  match i with
  | .modexp => 0x01#8
  | .modinv => 0x02#8
  | .keygen => 0x03#8
  | .encodeMsg => 0x04#8
  | .decodeBlk => 0x05#8
  | .encrypt => 0x06#8
  | .decrypt => 0x07#8
  | .checkpad => 0x08#8

/-- The command word of an instruction: RSV = 0 in bits 31:8, OPC in bits 7:0 (R100, R101). -/
def encode (i : Instr) : Word :=
  0#24 ++ opcodeOf i

/-- What the decoder reads from a command of the opcode table whose bits are `w`: one 32-bit word (R106). A
number that does not fit in the one word is no command. -/
def decodeTableWord (nbits w : Nat) : Option Instr :=
  if w % 2 ^ nbits < 2 ^ 32 then (decode (BitVec.ofNat 32 (w % 2 ^ nbits))).toOption else none

end Sys2Proof
end

