-- ==== Sys2Proof/Machine/Bytes.lean ====
section
/-! DEFINITION. Byte order (spec 00_scope.md R11; 20_memory.md R73, R74): buffers as big-endian integers, and
the packing of four buffer bytes in a bus word. -/

namespace Sys2Proof.Machine

/-- `BE(X)` of R11: byte 0 is the most significant. -/
def beNat : Buf → Nat
  | [] => 0
  | b :: bs => b.toNat * 256 ^ bs.length + beNat bs

/-- `ToBE(v)` of R11 in `n` bytes, left zero-padded. For v < 256^n it is the buffer with `BE(X) = v`. -/
def toBE : Nat → Nat → Buf
  | 0, _ => []
  | n + 1, v => BitVec.ofNat 8 (v / 256 ^ n) :: toBE n v

/-- The bus word `{a, b, c, d}`: `a` in bits 31:24, `d` in bits 7:0 (R73). -/
def packWord (a b c d : Byte) : Word :=
  a ++ b ++ c ++ d

/-- Byte `k` of a bus word, 0 the one in bits 31:24 (R73). -/
def wordByte (v : Word) (k : Nat) : Byte :=
  v.extractLsb' (24 - 8 * k) 8

/-- `X.byte[i]` (R12). Past the end of the buffer, which no rule reads, it is 0 (log 16). -/
def byteAt (x : Buf) (i : Nat) : Byte :=
  x.getD i 0#8

/-- The word at byte index `i` of a region (R73, R81): `{X[i], X[i+1], X[i+2], X[i+3]}`. -/
def wordAt (x : Buf) (i : Nat) : Word :=
  packWord (byteAt x i) (byteAt x (i + 1)) (byteAt x (i + 2)) (byteAt x (i + 3))

/-- The buffer after a word is written at byte index `i` (R73, R81): four bytes change together. -/
def putWord (x : Buf) (i : Nat) (v : Word) : Buf :=
  (((x.set i (wordByte v 0)).set (i + 1) (wordByte v 1)).set (i + 2) (wordByte v 2)).set (i + 3) (wordByte v 3)

end Sys2Proof.Machine
end

