-- ==== Sys2Proof/Machine/State.lean ====
section
/-! DEFINITION. The state of the block and its environment as plain data (spec 10_state.md), its value after
reset (R49), the well-formedness every step keeps, and the reasons a step can stop. -/

namespace Sys2Proof.Machine

/-- The error codes of STATUS.ERR (60_exceptions.md R200). Codes 8 to 14 are "never produced", so they have no
constructor (log 11). -/
inductive Err where
  | none | domain | encoding | padFormat | length | operand | noKey | keyLocked | illegal
deriving DecidableEq, Repr

/-- The RNG agent as the model sees it (R210, R48). Not part of the block: reset does not touch it (R49). -/
structure Rng where
  /-- Draws the environment fixes, by stream position. The other draws are `Config.rngByte`. -/
  given : List Byte
  /-- How many bytes have been drawn: the position in the stream. -/
  pos : Nat
deriving DecidableEq, Repr

/-- One value the bus returned to a host. -/
structure Reply where
  addr : Nat
  data : Word
deriving DecidableEq, Repr

/-- The environment: what is still to happen, in the order the bus and the agents deliver it (R86), and what
hosts have read. The model's own fields (log 1, log 13). -/
structure HostSide where
  pending : List Event
  replies : List Reply
deriving DecidableEq, Repr

/-- The whole machine. Register names are those of 10_state.md; STATUS is kept as its fields (R43) and read as
a word by `statusWord`. -/
structure State where
  build    : Build
  opa      : Buf
  opb      : Buf
  opm      : Buf
  res      : Buf
  msg      : Buf
  msgLen   : Word
  blk      : Buf
  ct       : Buf
  ctLen    : Word
  kp       : Buf
  kq       : Buf
  ke       : Buf
  kn       : Buf
  kphi     : Nat
  kd       : Nat
  keyValid : Bool
  busy     : Bool
  done     : Bool
  err      : Err
  oracle   : Bool
  wrap     : Bool
  curCmd   : Word
  rng      : Rng
  host     : HostSide
deriving DecidableEq, Repr

/-- The machine never faults: "There is no fault: the block has no way to signal a bus error" (R77), and a
command's error is a code in STATUS, after which the machine goes on (R201). No constructor: raised by no one,
and safe (log 18). -/
inductive Fault
deriving DecidableEq, Repr

/-- Where the model gives no meaning. -/
inductive Refusal where
  /-- Raised by an arm of `exec` that has no meaning yet (none is left). Safe. -/
  | notModelled (mnemonic : String)
  /-- Raised by `hostAccess` for a narrow, wide or misaligned access in the window: R72 "A model refuses it (it
  has no step)". Safe. -/
  | accessOutsideContract
  /-- Raised by `step` for a configuration that breaks R6: "A model refuses a configuration that breaks this".
  Safe. -/
  | illegalConfiguration
deriving DecidableEq, Repr

/-- B, the size in bytes of every big-number register and byte buffer (R6). -/
abbrev State.B (s : State) : Nat :=
  s.build.blockBytes

/-- The state after reset of a build (R49), with nothing drawn, nothing pending and nothing read. -/
def State.resetOf (b : Build) : State where
  build := b
  opa := toBE b.blockBytes 0
  opb := toBE b.blockBytes 0
  opm := toBE b.blockBytes 0
  res := toBE b.blockBytes 0
  msg := toBE b.blockBytes 0
  msgLen := 0#32
  blk := toBE b.blockBytes 0
  ct := toBE b.blockBytes 0
  ctLen := 0#32
  kp := toBE b.blockBytes b.keyP0
  kq := toBE b.blockBytes b.keyQ0
  ke := toBE b.blockBytes b.keyE0
  kn := toBE b.blockBytes 0
  kphi := 0
  kd := 0
  keyValid := false
  busy := false
  done := false
  err := .none
  oracle := false
  wrap := false
  curCmd := 0#32
  rng := { given := [], pos := 0 }
  host := { pending := [], replies := [] }

/-- The machine right after reset (R49, R242), for the hardware's build. -/
def State.reset : State :=
  State.resetOf Build.hardware

/-- What the spec says of every state: a legal configuration (R6); B bytes in every register (R31 to R39);
KPHI and KD below 256^B (R40); BUSY and DONE never together, ERR = 0 while BUSY (R43). -/
structure State.WF (s : State) : Prop where
  build : s.build.wf = true
  opa : s.opa.length = s.B
  opb : s.opb.length = s.B
  opm : s.opm.length = s.B
  res : s.res.length = s.B
  msg : s.msg.length = s.B
  blk : s.blk.length = s.B
  ct : s.ct.length = s.B
  kp : s.kp.length = s.B
  kq : s.kq.length = s.B
  ke : s.ke.length = s.B
  kn : s.kn.length = s.B
  kphi : s.kphi < 256 ^ s.B
  kd : s.kd < 256 ^ s.B
  notBusyAndDone : ¬ (s.busy = true ∧ s.done = true)
  noErrWhileBusy : s.busy = true → s.err = .none

/-- What KEY_VALID promises (R37, R41, R142, R143). With a key: n = p*q fits a register, phi = (p-1)*(q-1),
gcd(e, phi) = 1, and d is the inverse of e below phi. Without one: KN, KPHI and KD are as reset left them. -/
structure State.KeyInv (s : State) : Prop where
  present : s.keyValid = true →
    2 ≤ beNat s.kp ∧ 2 ≤ beNat s.kq ∧ beNat s.kn = beNat s.kp * beNat s.kq ∧
    s.kphi = (beNat s.kp - 1) * (beNat s.kq - 1) ∧ Nat.gcd (beNat s.ke) s.kphi = 1 ∧
    s.kd < s.kphi ∧ s.kd * beNat s.ke % s.kphi = 1 % s.kphi
  absent : s.keyValid = false → beNat s.kn = 0 ∧ s.kphi = 0 ∧ s.kd = 0

end Sys2Proof.Machine
end

