-- ==== Sys2Proof/Machine/Operands.lean ====
section
/-! DEFINITION. The implicit operands (spec 30_encoding.md R104, R105; 00_scope.md R12): every command reads and
writes whole registers by name, as buffers or as unsigned big-endian integers. -/

namespace Sys2Proof.Machine

/-- The bytes of a register: `R.X` as a buffer (R12). -/
def State.buf (s : State) (x : BigReg) : Buf :=
  match x with
  | .opa => s.opa
  | .opb => s.opb
  | .opm => s.opm
  | .res => s.res
  | .msg => s.msg
  | .blk => s.blk
  | .ct => s.ct
  | .kp => s.kp
  | .kq => s.kq
  | .ke => s.ke
  | .kn => s.kn

/-- The state with the bytes of a register replaced. -/
def State.setBuf (s : State) (x : BigReg) (b : Buf) : State :=
  match x with
  | .opa => { s with opa := b }
  | .opb => { s with opb := b }
  | .opm => { s with opm := b }
  | .res => { s with res := b }
  | .msg => { s with msg := b }
  | .blk => { s with blk := b }
  | .ct => { s with ct := b }
  | .kp => { s with kp := b }
  | .kq => { s with kq := b }
  | .ke => { s with ke := b }
  | .kn => { s with kn := b }

/-- `R.X` in an arithmetic expression: `BE(X)` (R12). -/
def State.val (s : State) (x : BigReg) : Nat :=
  beNat (s.buf x)

/-- `R.X <- v`: writes `ToBE(v)` (R12). -/
def State.setVal (s : State) (x : BigReg) (v : Nat) : State :=
  s.setBuf x (toBE s.B v)

end Sys2Proof.Machine
end

