-- ==== Sys2Proof/Machine/Flags.lean ====
section
/-! DEFINITION. The fields of STATUS (spec 10_state.md R43; 60_exceptions.md R200), the STATUS and CFG words a
host reads (20_memory.md R81; R44), and the one flag a command computes (43_cipher.md R170, R171). -/

namespace Sys2Proof.Machine

/-- The code of an error in STATUS bits 7:4 (R200). -/
def Err.code (e : Err) : BitVec 4 :=
  match e with
  | .none => 0#4
  | .domain => 1#4
  | .encoding => 2#4
  | .padFormat => 3#4
  | .length => 4#4
  | .operand => 5#4
  | .noKey => 6#4
  | .keyLocked => 7#4
  | .illegal => 15#4

/-- `{21'b0, KEY_VALID, WRAP, ORACLE, ERR[3:0], 2'b0, DONE, BUSY}` (R81, R43). -/
def statusWord (s : State) : Word :=
  0#21 ++ BitVec.ofBool s.keyValid ++ BitVec.ofBool s.wrap ++ BitVec.ofBool s.oracle ++ s.err.code ++ 0#2 ++
    BitVec.ofBool s.done ++ BitVec.ofBool s.busy

/-- CFG: B in bits 15:0, zeros above (R44, R81). -/
def cfgWord (s : State) : Word :=
  (BitVec.ofNat 16 s.B).setWidth 32

/-- STATUS.WRAP for an input integer `v` and a modulus `n`: 1 when v >= n (R170, R171). -/
def wrapOf (v n : Nat) : Bool :=
  decide (n ≤ v)

end Sys2Proof.Machine
end

