-- ==== Sys2Proof/Machine/Ops.lean ====
section
/-! DEFINITION. The operations the commands and the bus share: issue, commit, the report of an error (the
block's counterpart of taking an exception) and its clearing, RNG draws, replies, reset. -/

namespace Sys2Proof.Machine

/-- The word the ENGINE decodes: CUR_CMD (spec 10_state.md R45, R46; 30_encoding.md R102). -/
def fetch (s : State) : Word :=
  s.curCmd

/-- `Issue(v)` of 30_encoding.md R111: latches the word, sets BUSY, clears DONE and ERR. It is also the only
thing but reset that clears an error (60_exceptions.md R205, the counterpart of a return). -/
def issue (v : Word) (s : State) : State :=
  { s with curCmd := v, busy := true, done := false, err := .none }

/-- The end of `Complete()` (30_encoding.md R112): ERR <- c, DONE <- 1, BUSY <- 0. -/
def finish (c : Err) (s : State) : State :=
  { s with err := c, done := true, busy := false }

/-- The report of an error, the counterpart of taking an exception (60_exceptions.md R201, R202): from the state
before the command, so every staged write is discarded, only ERR, DONE and BUSY are written. -/
def takeError (c : Err) (s : State) : State :=
  finish c s

/-- `Complete()` of 30_encoding.md R112 once a command's pseudocode has run on `s`: `.ok t` carries the state with
its staged writes, which are applied; `.error c` is `raise CmdError(c)`. -/
def commit (r : Except Err State) (s : State) : State :=
  match r with
  | .ok t => finish .none t
  | .error c => takeError c s

/-- The byte at a position of the RNG stream: as the environment fixed it, or a free value (60_exceptions.md
R210). -/
def Rng.byteAt (r : Rng) (i : Nat) : Byte :=
  (r.given[i]?).getD (Config.rngByte i)

/-- The next `k` draws, in order (42_padding.md R151). -/
def draws (s : State) (k : Nat) : List Byte :=
  (List.range k).map fun i => s.rng.byteAt (s.rng.pos + i)

/-- The state after `k` draws. -/
def advanceRng (s : State) (k : Nat) : State :=
  { s with rng := { s.rng with pos := s.rng.pos + k } }

/-- The bus returns a word to a host. No register of the block changes (20_memory.md R82). -/
def reply (addr : Nat) (data : Word) (s : State) : State :=
  { s with host := { s.host with replies := { addr := addr, data := data } :: s.host.replies } }

/-- The events still to come, replaced. -/
def withPending (s : State) (es : List Event) : State :=
  { s with host := { s.host with pending := es } }

/-- One reset step (70_reset_and_hazards.md R240, R241; 10_state.md R49): every piece of the block's state at its
reset value, a command in flight abandoned. The build is fixed (R6) and the RNG is not part of the block. -/
def resetBlock (s : State) : State :=
  { State.resetOf s.build with rng := s.rng, host := s.host }

end Sys2Proof.Machine
end

