-- ==== Sys2Proof/Machine/Bus.lean ====
section
/-! DEFINITION. The host's bus accesses (spec 20_memory.md): the register map, MemRead, MemWrite, routing and the
interface contract. -/

namespace Sys2Proof.Machine

/-- The base offset of a register's region (R71). -/
def regionBase (x : BigReg) : Nat :=
  match x with
  | .opa => 0x1000
  | .opb => 0x2000
  | .opm => 0x3000
  | .res => 0x4000
  | .msg => 0x5000
  | .blk => 0x6000
  | .ct => 0x7000
  | .kp => 0x8000
  | .kq => 0x9000
  | .ke => 0xA000
  | .kn => 0xB000

/-- The register whose region holds an offset (R71). A region spans 0x1000 bytes; 0x0000 to 0x0FFF and 0xC000 to
0xFFFF belong to none. -/
def regionOf (off : Nat) : Option BigReg :=
  match off / 0x1000 with
  | 0x1 => some .opa
  | 0x2 => some .opb
  | 0x3 => some .opm
  | 0x4 => some .res
  | 0x5 => some .msg
  | 0x6 => some .blk
  | 0x7 => some .ct
  | 0x8 => some .kp
  | 0x9 => some .kq
  | 0xA => some .ke
  | 0xB => some .kn
  | _ => none

/-- A host may read the register: all but KP and KQ (R77, R81). -/
def hostReadable (x : BigReg) : Bool :=
  match x with
  | .kp | .kq => false
  | .opa | .opb | .opm | .res | .msg | .blk | .ct | .ke | .kn => true

/-- A host write to the register is stored: never to RES and KN (R77); to KP, KQ and KE only while KEY_VALID = 0
(R78). -/
def hostWritable (s : State) (x : BigReg) : Bool :=
  match x with
  | .res | .kn => false
  | .kp | .kq | .ke => !s.keyValid
  | .opa | .opb | .opm | .msg | .blk | .ct => true

/-- `MemRead` inside a region, at byte index `i` of it (R81, R75). -/
def readRegion (s : State) (x : BigReg) (i : Nat) : Word :=
  if hostReadable x && decide (i < s.B) then wordAt (s.buf x) i else 0#32

/-- `MemWrite` inside a region, at byte index `i` of it (R81, R75, R78). -/
def writeRegion (s : State) (x : BigReg) (i : Nat) (v : Word) : State :=
  if hostWritable s x && decide (i < s.B) then s.setBuf x (putWord (s.buf x) i v) else s

/-- `MemRead(off, 4)` of R81. -/
def memRead (s : State) (off : Nat) : Word :=
  if off = 0x0000 then 0#32
  else if off = 0x0004 then statusWord s
  else if off = 0x0008 then s.msgLen
  else if off = 0x000C then s.ctLen
  else if off = 0x0010 then cfgWord s
  else
    match regionOf off with
    | some x => readRegion s x (off - regionBase x)
    | none => 0#32

/-- `MemWrite(off, 4, v)` of R81: ignored while BUSY = 1 (R79); a write to CMD issues (R111). -/
def memWrite (s : State) (off : Nat) (v : Word) : State :=
  if s.busy then s
  else if off = 0x0000 then issue v s
  else if off = 0x0008 then { s with msgLen := v }
  else if off = 0x000C then { s with ctLen := v }
  else
    match regionOf off with
    | some x => writeRegion s x (off - regionBase x) v
    | none => s

/-- One access the bus delivers. It is the block's when its address lies in the window (R70); it must then meet
R72; a read returns its word to the host, a write takes effect at once (R81, R82). -/
def hostAccess (a : Access) (s : State) : Host.Outcome State Fault Refusal :=
  if a.routed s.build then
    if a.wf s.build then
      match a.op with
      | .read => .next (reply a.addr (memRead s (a.offset s.build)) s)
      | .write v => .next (memWrite s (a.offset s.build) v)
    else .refused .accessOutsideContract
  else .next s

end Sys2Proof.Machine
end

