-- ==== Sys2Proof/Machine/ModArith.lean ====
section
/-! DEFINITION. Modular arithmetic (spec 40_modarith.md): ModExp, ModInv, and the commands MODEXP and MODINV. -/

namespace Sys2Proof.Machine

/-- The loop of R120, least significant bit of the exponent first. The first argument bounds the number of
rounds; `modExp` gives as many as the exponent has bits (log 17). -/
def modExpLoop : Nat → Nat → Nat → Nat → Nat → Nat
  | 0, acc, _, _, _ => acc
  | k + 1, acc, base, x, m =>
    if x = 0 then acc
    else modExpLoop k (if x % 2 = 1 then acc * base % m else acc) (base * base % m) (x / 2) m

/-- `ModExp(b, x, m)` of R120, for m >= 1. -/
def modExp (b x m : Nat) : Nat :=
  modExpLoop (x.log2 + 1) (1 % m) (b % m) x m

/-- The loop of R121. `r0`, `r1` are the remainders, `s0`, `s1` the signed Bézout coefficients. The first argument
bounds the number of rounds; `r1` falls in every round, so `r1` rounds are enough (log 17). -/
def modInvLoop : Nat → Nat → Nat → Int → Int → Nat × Int
  | 0, r0, _, s0, _ => (r0, s0)
  | k + 1, r0, r1, s0, s1 =>
    if r1 = 0 then (r0, s0)
    else modInvLoop k r1 (r0 - r0 / r1 * r1) s1 (s0 - (r0 / r1 : Nat) * s1)

/-- `ModInv(a, m)` of R121, for m >= 1; `none` is the outcome NOINV. -/
def modInv (a m : Nat) : Option Nat :=
  match modInvLoop (m + 1) (a % m) m 1 0 with
  | (g, c) => if g = 1 then some (c % (m : Int)).toNat else none

/-- The pseudocode of MODEXP (R122). -/
def modexpBody (s : State) : Except Err State :=
  if s.val .opm = 0 then .error .operand
  else .ok (s.setVal .res (modExp (s.val .opa) (s.val .opb) (s.val .opm)))

/-- MODEXP (R122): RES <- OPA^OPB mod OPM. -/
def execModexp (s : State) : Host.Outcome State Fault Refusal :=
  .next (commit (modexpBody s) s)

/-- The pseudocode of MODINV (R123). -/
def modinvBody (s : State) : Except Err State :=
  if s.val .opm = 0 then .error .operand
  else
    match modInv (s.val .opa) (s.val .opm) with
    | none => .error .domain
    | some d => .ok (s.setVal .res d)

/-- MODINV (R123): RES <- OPA^-1 mod OPM. -/
def execModinv (s : State) : Host.Outcome State Fault Refusal :=
  .next (commit (modinvBody s) s)

end Sys2Proof.Machine
end

