-- ==== Sys2Proof/Machine/Cipher.lean ====
section
/-! DEFINITION. The RSA block cipher (spec 43_cipher.md): the commands ENCRYPT and DECRYPT. -/

namespace Sys2Proof.Machine

/-- The pseudocode of ENCRYPT (R170). A block that is not below n is reduced, and flagged by WRAP. DESIGN CHOICE (log 25):
where e = 0 (with the key p = q = 2) the corner case 'm = 0 gives CT = 0' and the pseudocode, by which 0^0 = 1, differ;
the pseudocode is followed. -/
def encryptBody (s : State) : Except Err State :=
  if s.keyValid then
    .ok { s.setVal .ct (modExp (s.val .blk) (s.val .ke) (s.val .kn)) with
          ctLen := BitVec.ofNat 32 s.B
          wrap := wrapOf (s.val .blk) (s.val .kn) }
  else .error .noKey

/-- ENCRYPT (R170): CT <- ToBE(BE(BLK)^e mod n). -/
def execEncrypt (s : State) : Host.Outcome State Fault Refusal :=
  .next (commit (encryptBody s) s)

/-- The pseudocode of DECRYPT (R171): no key first, then the length. DESIGN CHOICE (log 25): where d = 0 (with the key
p = q = 2) the corner case 'c = 0 gives 0' and the pseudocode differ in the same way; the pseudocode is followed. -/
def decryptBody (s : State) : Except Err State :=
  if s.keyValid then
    if s.ctLen.toNat = s.B then
      .ok { s.setVal .blk (modExp (s.val .ct) s.kd (s.val .kn)) with
            wrap := wrapOf (s.val .ct) (s.val .kn) }
    else .error .length
  else .error .noKey

/-- DECRYPT (R171): BLK <- ToBE(BE(CT)^d mod n). -/
def execDecrypt (s : State) : Host.Outcome State Fault Refusal :=
  .next (commit (decryptBody s) s)

end Sys2Proof.Machine
end

