-- ==== Sys2Proof/Machine/KeyMaterial.lean ====
section
/-! DEFINITION. Key material (spec 41_keymaterial.md): KeyDerive and the command KEYGEN. -/

namespace Sys2Proof.Machine

/-- What KeyDerive answers: n, phi and d. -/
structure KeyTriple where
  n   : Nat
  phi : Nat
  d   : Nat
deriving DecidableEq, Repr

/-- `KeyDerive(p, q, e)` of R140 for registers of `size` bytes: OPERAND and DOMAIN are its two failures, in this
order. Primality and closeness are not tested (R140, R145). -/
def keyDerive (size p q e : Nat) : Except Err KeyTriple :=
  if p < 2 ∨ q < 2 then .error .operand
  else if 256 ^ size ≤ p * q then .error .operand
  else
    match modInv e ((p - 1) * (q - 1)) with
    | none => .error .domain
    | some d => .ok { n := p * q, phi := (p - 1) * (q - 1), d := d }

/-- The writes of a successful KEYGEN (R141): KN, KPHI, KD, and KEY_VALID set. -/
def installKey (s : State) (k : KeyTriple) : State :=
  { s.setVal .kn k.n with kphi := k.phi, kd := k.d, keyValid := true }

/-- The pseudocode of KEYGEN (R141). -/
def keygenBody (s : State) : Except Err State :=
  if s.keyValid then .error .keyLocked
  else
    match keyDerive s.B (s.val .kp) (s.val .kq) (s.val .ke) with
    | .error c => .error c
    | .ok k => .ok (installKey s k)

/-- KEYGEN (R141): construct the key material once. -/
def execKeygen (s : State) : Host.Outcome State Fault Refusal :=
  .next (commit (keygenBody s) s)

end Sys2Proof.Machine
end

