-- ==== Sys2Proof/Machine/Oracle.lean ====
section
/-! DEFINITION. The padding oracle (spec 44_oracle.md): the command CHECKPAD. -/

namespace Sys2Proof.Machine

/-- The bit CHECKPAD reports (R190): a key, a ciphertext of B bytes, and a decryption that begins 00 02. Every
failure is 0. -/
def oracleBit (s : State) : Bool :=
  s.keyValid && s.ctLen.toNat == s.B &&
    (byteAt (toBE s.B (modExp (s.val .ct) s.kd (s.val .kn))) 0 == 0x00#8 &&
      byteAt (toBE s.B (modExp (s.val .ct) s.kd (s.val .kn))) 1 == 0x02#8)

/-- The pseudocode of CHECKPAD (R190). It never raises an error (R204). -/
def checkpadBody (s : State) : Except Err State :=
  .ok { s with oracle := oracleBit s }

/-- CHECKPAD (R190): STATUS.ORACLE <- whether the decryption of CT begins 00 02. -/
def execCheckpad (s : State) : Host.Outcome State Fault Refusal :=
  .next (commit (checkpadBody s) s)

end Sys2Proof.Machine
end

