-- ==== Sys2Proof/Machine/Padding.lean ====
section
/-! DEFINITION. The padding codec (spec 42_padding.md): PadEncode, PadDecode, and the commands ENCODE and
DECODE. -/

namespace Sys2Proof.Machine

/-- A drawn byte as a pad byte: 0x00 becomes 0xFF (R150). -/
def padByte (r : Byte) : Byte :=
  if r = 0x00#8 then 0xFF#8 else r

/-- `PadEncode(msg, L, r)` of R150: 00 02, one pad byte for each draw, the separator 00, and the first `len` bytes
of the message buffer. With B - 3 - L draws the block has B bytes. -/
def padEncode (msg : Buf) (len : Nat) (r : List Byte) : Buf :=
  [0x00#8, 0x02#8] ++ r.map padByte ++ [0x00#8] ++ msg.take len

/-- The bytes after the first 0x00 byte, if there is one. -/
def afterSeparator : List Byte → Option (List Byte)
  | [] => none
  | b :: bs => if b = 0x00#8 then some bs else afterSeparator bs

/-- `PadDecode(blk)` of R152: the message, whose length is L = B - 1 - j; `none` is the outcome BADPAD. -/
def padDecode (blk : Buf) : Option (List Byte) :=
  if byteAt blk 0 ≠ 0x00#8 ∨ byteAt blk 1 ≠ 0x02#8 then none
  else afterSeparator (blk.drop 2)

/-- The writes of a successful ENCODE of `len` bytes (R151): exactly B - 3 - len draws, BLK. -/
def encodeWrites (s : State) (len : Nat) : State :=
  (advanceRng s (s.B - 3 - len)).setBuf .blk (padEncode s.msg len (draws s (s.B - 3 - len)))

/-- The pseudocode of ENCODE (R151): L is the full 32-bit value of MSG_LEN. -/
def encodeBody (s : State) : Except Err State :=
  if s.B < s.msgLen.toNat + 3 then .error .encoding
  else .ok (encodeWrites s s.msgLen.toNat)

/-- ENCODE (R151): pad MSG into BLK. -/
def execEncode (s : State) : Host.Outcome State Fault Refusal :=
  .next (commit (encodeBody s) s)

/-- The writes of a successful DECODE (R153): the message in MSG, zeros after it, its length in MSG_LEN. -/
def decodeWrites (s : State) (m : List Byte) : State :=
  { s with msg := m ++ List.replicate (s.B - m.length) 0x00#8, msgLen := BitVec.ofNat 32 m.length }

/-- The pseudocode of DECODE (R153). -/
def decodeBody (s : State) : Except Err State :=
  match padDecode s.blk with
  | none => .error .padFormat
  | some m => .ok (decodeWrites s m)

/-- DECODE (R153): unpad BLK into MSG. -/
def execDecode (s : State) : Host.Outcome State Fault Refusal :=
  .next (commit (decodeBody s) s)

end Sys2Proof.Machine
end

