-- ==== Sys2Proof/Machine/Dispatch.lean ====
section
/-! DEFINITION. Dispatch (spec 30_encoding.md R113): which meaning completes which command. -/

namespace Sys2Proof.Machine

-- The completion (R112) of a decoded command in a state: its pseudocode, then the commit.
def exec (i : Instr) (s : State) : Host.Outcome State Fault Refusal :=
  match i with
  | .modexp => Sys2Proof.Machine.execModexp s
  | .modinv => Sys2Proof.Machine.execModinv s
  | .keygen => Sys2Proof.Machine.execKeygen s
  | .encodeMsg => Sys2Proof.Machine.execEncode s
  | .decodeBlk => Sys2Proof.Machine.execDecode s
  | .encrypt => Sys2Proof.Machine.execEncrypt s
  | .decrypt => Sys2Proof.Machine.execDecrypt s
  | .checkpad => Sys2Proof.Machine.execCheckpad s

end Sys2Proof.Machine
end

