-- ==== Sys2Proof/Machine/Engine.lean ====
section
/-! DEFINITION. The moves of the agents (spec 10_state.md R30): the ENGINE's completion (30_encoding.md R112),
reset (70_reset_and_hazards.md R240), a host access, and the idle block. -/

namespace Sys2Proof.Machine

/-- `Complete()` of R112: decode CUR_CMD; an illegal word raises ERR_ILLEGAL (R103, R113), any other word runs its
command. -/
def complete (s : State) : Host.Outcome State Fault Refusal :=
  match decode (fetch s) with
  | .ok i => exec i s
  | .error _ => .next (takeError .illegal s)

/-- The ENGINE's turn: its step is "enabled exactly when STATUS.BUSY = 1" (R112). An idle block keeps all its
state (60_exceptions.md R213; log 6). -/
def engineMove (s : State) : Host.Outcome State Fault Refusal :=
  if s.busy then complete s else .next s

/-- The event `next` of the host `h`, put after `g` of the events `es`, but before the first that is the host's own: a
host does one thing after another. -/
def afterOthers (h : Nat) (next : Event) : Nat → List Event → List Event
  | 0, es => next :: es
  | _ + 1, [] => [next]
  | g + 1, e :: es => if e.ofHost h then next :: e :: es else e :: afterOthers h next g es

/-- The events after a read of a POLL loop that saw BUSY = 1: the loop's next read comes after the next `g` events of
others; with no gap left the ENGINE has its turn first, the weak fairness of R247 (log 14). -/
def pollAgain (h : Nat) (gaps : List Nat) (es : List Event) : List Event :=
  match gaps with
  | [] => .engine :: .poll h [] :: es
  | g :: gs => afterOthers h (.poll h gs) g es

/-- One round of `POLL` (30_encoding.md R117): `RD 0x0004 -> s`, repeated while s[0] = 1. -/
def pollRound (h : Nat) (gaps : List Nat) (s : State) : State :=
  reply (s.build.base + 0x0004) (memRead s 0x0004)
    (withPending s (if (memRead s 0x0004).getLsbD 0 then pollAgain h gaps s.host.pending else s.host.pending))

/-- The turn of the agent an event names. Accesses delivered during the reset step are not performed (R241). DESIGN CHOICE
(log 27): so also where one of them is outside the contract of R72, which alone would refuse it. -/
def perform (e : Event) (s : State) : Host.Outcome State Fault Refusal :=
  match e with
  | .access a => hostAccess a s
  | .engine => engineMove s
  | .reset _ => .next (resetBlock s)
  | .poll h gaps => .next (pollRound h gaps s)

/-- One move: the first pending event, taken off the list; with none pending, the ENGINE's turn, which is the weak
fairness of R247 (log 7). -/
def move (s : State) : Host.Outcome State Fault Refusal :=
  match s.host.pending with
  | [] => engineMove s
  | e :: es => perform e (withPending s es)

/-- A command word placed as the host's write to CMD would place it (R111), with the ENGINE to move next. -/
def placeCommand (w : Word) (s : State) : State :=
  withPending (issue w s) (.engine :: s.host.pending)

end Sys2Proof.Machine
end

