-- ==== Sys2Proof/Machine/Step.lean ====
section
/-! DEFINITION. One step of the machine, and the placing of a command where the next step takes it. -/

namespace Sys2Proof.Machine

/-- One step: refused for a configuration that breaks R6 (60_exceptions.md R214), else the next move. -/
def step (s : State) : Host.Outcome State Fault Refusal :=
  if s.build.wf then move s else .refused .illegalConfiguration

/-- The state whose next step completes the command word `w` (its bits above `nbits` zero): the state after the
host's write of `w` to CMD, with the ENGINE to move next (log 2). -/
def State.withFetchWord (s : State) (nbits w : Nat) : State :=
  placeCommand (BitVec.ofNat 32 (w % 2 ^ nbits)) s

end Sys2Proof.Machine
end

