-- ==== Sys2Proof/Machine/HostProgram.lean ====
section
/-! DEFINITION. Host assembly (spec 30_encoding.md R116, R117): the events a line of it stands for. -/

namespace Sys2Proof.Machine

/-- `WR off, v`: one bus write (R116). -/
def wrEvent (h : Nat) (b : Build) (off : Nat) (v : Word) : Event :=
  .access { host := h, addr := b.base + off, bytes := 4, op := .write v }

/-- `RD off`: one bus read (R116). -/
def rdEvent (h : Nat) (b : Build) (off : Nat) : Event :=
  .access { host := h, addr := b.base + off, bytes := 4, op := .read }

/-- The 4-byte groups of data as bus words, the last padded with 0x00 bytes on the right (R117, LDB; R73). -/
def wordsOf : List Byte → List Word
  | [] => []
  | [a] => [packWord a 0#8 0#8 0#8]
  | [a, b] => [packWord a b 0#8 0#8]
  | [a, b, c] => [packWord a b c 0#8]
  | a :: b :: c :: d :: rest => packWord a b c d :: wordsOf rest

/-- Writes of words at increasing offsets from `off`. -/
def wrWords (h : Nat) (b : Build) (off : Nat) : List Word → List Event
  | [] => []
  | w :: ws => wrEvent h b off w :: wrWords h b (off + 4) ws

/-- Reads of `n` words at increasing offsets from `off`. -/
def rdWords (h : Nat) (b : Build) (off : Nat) : Nat → List Event
  | 0 => []
  | n + 1 => rdEvent h b off :: rdWords h b (off + 4) n

/-- `POLL` (R117): a loop that ends at its first read that sees BUSY = 0. With a command in flight, `k` of its reads
come before the ENGINE's completion (log 14). -/
def pollEvents (h k : Nat) : List Event :=
  match k with
  | 0 => [.engine, .poll h []]
  | k + 1 => [.poll h (List.replicate k 0)]

/-- The events a line of the host `h` stands for (R116, R117). -/
def lineEvents (h : Nat) (b : Build) (l : HostLine) : List Event :=
  match l with
  | .wr off v => [wrEvent h b off v]
  | .rd off => [rdEvent h b off]
  | .cmd i => [wrEvent h b 0x0000 (encode i)]
  | .comment _ => []
  | .completion => [.engine]
  | .poll k => pollEvents h k
  | .ldi x v => wrWords h b (regionBase x) (wordsOf (toBE b.blockBytes v))
  | .ldb x bytes => wrWords h b (regionBase x) (wordsOf bytes)
  | .rdb x => rdWords h b (regionBase x) (b.blockBytes / 4)
  | .run i k => wrEvent h b 0x0000 (encode i) :: pollEvents h k

/-- A program of the host `h` placed before whatever is pending, if every line is well-formed. -/
def loadHostProgram (h : Nat) (ls : List HostLine) (s : State) : Option State :=
  if ls.all (HostLine.wf s.build) then some (withPending s (ls.flatMap (lineEvents h s.build) ++ s.host.pending))
  else none

end Sys2Proof.Machine
end

