-- ==== Sys2Proof/Safety.lean ====
section
/-! DEFINITION. What counts as a safe run, when a run is over, whose turn it is, and what a host may not learn. -/

namespace Sys2Proof

open Machine

/-- Every pending event keeps the interface contract of spec 20_memory.md R72. -/
def InContract (s : Machine.State) : Prop :=
  ∀ e ∈ s.host.pending, e.inContract s.build = true

/-- A run of `n` steps that stops nowhere ends in `t`. -/
def RunsTo (n : Nat) (s t : Machine.State) : Prop :=
  core.run n s = .next t

/-- A safe run: no step of it, however many there are, faults or is refused. -/
def SafeRun (s : Machine.State) : Prop :=
  ∀ n, ∃ t, RunsTo n s t

/-- The end of a run of a host program (70_reset_and_hazards.md R249): the host `h` has performed its last bus access
and BUSY = 0. What other agents' events are pending does not matter; an access of `h` that a pending reset loses is
not counted (log 24). It is a predicate of the present state (DESIGN CHOICE, log 26): once another host issues a command,
it holds no longer, where R249 says nothing of later accesses by others. -/
def RunOver (h : Nat) (s : Machine.State) : Prop :=
  (∀ e ∈ s.host.pending, e.ofHost h = false) ∧ s.busy = false

/-- Nothing is left to happen: no event of any agent is pending, and the ENGINE has no enabled step. -/
def Quiet (s : Machine.State) : Prop :=
  s.host.pending = [] ∧ s.busy = false

/-- It is the ENGINE's turn, with the events `es` left after it: an engine event, or no event pending. -/
def EngineTurn (s : Machine.State) (es : List Event) : Prop :=
  s.host.pending = .engine :: es ∨ (s.host.pending = [] ∧ es = [])

/-- The bus delivers the access `a` next, it is the block's (R70), it meets R72, and `es` are left after it. -/
def AccessTurn (s : Machine.State) (a : Access) (es : List Event) : Prop :=
  s.host.pending = .access a :: es ∧ a.routed s.build = true ∧ a.wf s.build = true

/-- The event is a reset. -/
def Event.isReset (e : Event) : Bool :=
  match e with
  | .reset _ => true
  | .access _ | .engine | .poll _ _ => false

/-- The event is a bus access by itself (a POLL loop, which makes accesses in turn, is not). -/
def Event.isAccess (e : Event) : Bool :=
  match e with
  | .access _ => true
  | .reset _ | .engine | .poll _ _ => false

/-- How many steps an event can take at most: a POLL loop reads once for each gap and once after the last one, then
the ENGINE moves, and the loop reads once more. -/
def Event.cost (e : Event) : Nat :=
  match e with
  | .access _ | .engine | .reset _ => 1
  | .poll _ gaps => gaps.length + 3

/-- The two states differ at most in what R144 calls the private part {d, p, q}, and phi. -/
def SameButSecrets (s t : Machine.State) : Prop :=
  t = { s with kp := t.kp, kq := t.kq, kphi := t.kphi, kd := t.kd }

/-- The two states agree on what a command reads: the column "reads" of 30_encoding.md R104, for one build. The RNG
agent's answers are ENCODE's. -/
def SameReads (i : Instr) (s t : Machine.State) : Prop :=
  s.build = t.build ∧
    match i with
    | .modexp => s.opa = t.opa ∧ s.opb = t.opb ∧ s.opm = t.opm
    | .modinv => s.opa = t.opa ∧ s.opm = t.opm
    | .keygen => s.kp = t.kp ∧ s.kq = t.kq ∧ s.ke = t.ke ∧ s.keyValid = t.keyValid
    | .encodeMsg => s.msg = t.msg ∧ s.msgLen = t.msgLen ∧ s.rng = t.rng
    | .decodeBlk => s.blk = t.blk
    | .encrypt => s.blk = t.blk ∧ s.kn = t.kn ∧ s.ke = t.ke ∧ s.keyValid = t.keyValid
    | .decrypt | .checkpad =>
      s.ct = t.ct ∧ s.ctLen = t.ctLen ∧ s.kn = t.kn ∧ s.kd = t.kd ∧ s.keyValid = t.keyValid

/-- The two states agree on what a command writes on success: the column "writes on success" of R104. -/
def SameWrites (i : Instr) (s t : Machine.State) : Prop :=
  match i with
  | .modexp | .modinv => s.res = t.res
  | .keygen => s.kn = t.kn ∧ s.kphi = t.kphi ∧ s.kd = t.kd ∧ s.keyValid = t.keyValid
  | .encodeMsg => s.blk = t.blk ∧ s.rng = t.rng
  | .decodeBlk => s.msg = t.msg ∧ s.msgLen = t.msgLen
  | .encrypt => s.ct = t.ct ∧ s.ctLen = t.ctLen ∧ s.wrap = t.wrap
  | .decrypt => s.blk = t.blk ∧ s.wrap = t.wrap
  | .checkpad => s.oracle = t.oracle

/-- `t` is `s` but for what a command may write: the registers of R104's column "writes on success" (for ENCODE the
position of the RNG stream with them), and STATUS.BUSY, DONE and ERR. -/
def WritesOnlyIts (i : Instr) (s t : Machine.State) : Prop :=
  match i with
  | .modexp | .modinv => t = { s with res := t.res, err := t.err, done := t.done, busy := t.busy }
  | .keygen =>
    t = { s with kn := t.kn, kphi := t.kphi, kd := t.kd, keyValid := t.keyValid, err := t.err, done := t.done,
                 busy := t.busy }
  | .encodeMsg =>
    t = { s with blk := t.blk, rng := { s.rng with pos := t.rng.pos }, err := t.err, done := t.done, busy := t.busy }
  | .decodeBlk => t = { s with msg := t.msg, msgLen := t.msgLen, err := t.err, done := t.done, busy := t.busy }
  | .encrypt =>
    t = { s with ct := t.ct, ctLen := t.ctLen, wrap := t.wrap, err := t.err, done := t.done, busy := t.busy }
  | .decrypt => t = { s with blk := t.blk, wrap := t.wrap, err := t.err, done := t.done, busy := t.busy }
  | .checkpad => t = { s with oracle := t.oracle, err := t.err, done := t.done, busy := t.busy }

/-- The hazard rule (70_reset_and_hazards.md R244), read as: while BUSY = 1 no host does anything but read STATUS.
DESIGN CHOICE (log 23): R244 forbids to rely on a result register, and does not say which reads that is, so every read
but one of STATUS counts as a breach; and BUSY = 0 in the state is enough, where R244 has the host read it. -/
def HazardFree (s : Machine.State) (e : Event) : Prop :=
  match e with
  | .access a =>
    s.busy = true → a.routed s.build = true → a.op = .read ∧ a.offset s.build = 0x0004
  | .engine => True
  | .reset _ => True
  | .poll _ _ => True

end Sys2Proof
end

