-- ==== Sys2Proof/Certificates/Slice0/Obligations.lean ====
section
/-! DEFINITION. The statements about the model, from the spec's numbered rules. Each docstring names the rule, and
says where a clause is the model's own choice. -/

open Sys2Proof Sys2Proof.Machine

/-! ### Reset -/

/-- 10_state.md R49, 00_scope.md R6: the launch state of this hardware's build. -/
def Obligations.LaunchStateHoldsTheBuiltInKey : Prop :=
  State.reset.B = 128 ∧ State.reset.val .kp = 1000000000000000003 ∧ State.reset.val .kq = 1000000000000000019 ∧
    State.reset.val .ke = 65537 ∧ State.reset.val .kn = 0 ∧ State.reset.kphi = 0 ∧ State.reset.kd = 0 ∧
    statusWord State.reset = 0#32 ∧ State.reset.curCmd = 0#32

/-- The two invariants hold at reset (R49, R37). -/
def Obligations.LaunchStateMeetsTheInvariants : Prop :=
  State.reset.WF ∧ State.reset.KeyInv

/-- R49, R240, R241: one reset step, from any state, also with a command in flight, restores every register, draws
nothing, and performs none of the accesses delivered with it. Here these keep the contract of R72; for the others
`ResetDropsEveryAccess` says that nothing differs. -/
def Obligations.ResetStepRestoresEveryRegister : Prop :=
  ∀ (s : State) (lost : List Access) (es : List Event), s.build.wf = true → s.host.pending = .reset lost :: es →
    (∀ a ∈ lost, (Event.access a).inContract s.build = true) →
    ∃ t, step s = .next t ∧ t.build = s.build ∧ t.rng = s.rng ∧
      t.host = { pending := es, replies := s.host.replies } ∧
      (∀ x, (t.buf x).length = s.B) ∧
      (∀ x, x ≠ .kp → x ≠ .kq → x ≠ .ke → t.buf x = List.replicate s.B 0#8) ∧
      t.val .kp = s.build.keyP0 ∧ t.val .kq = s.build.keyQ0 ∧ t.val .ke = s.build.keyE0 ∧
      t.msgLen = 0#32 ∧ t.ctLen = 0#32 ∧ t.kphi = 0 ∧ t.kd = 0 ∧ t.keyValid = false ∧ t.busy = false ∧
      t.done = false ∧ t.err = .none ∧ t.oracle = false ∧ t.wrap = false ∧ memRead t 0x0004 = 0#32 ∧
      t.curCmd = 0#32 ∧ memRead t 0x0010 = BitVec.ofNat 32 s.B

/-! ### Invariants of every step -/

/-- Every step keeps the state well-formed (R6, R7, R31 to R40, R43), from every well-formed state. -/
def Obligations.StepKeepsTheStateWellFormed : Prop :=
  ∀ s t : State, s.WF → step s = .next t → t.WF

/-- Every step keeps what KEY_VALID promises (R37, R41, R142, R143), from every state that meets it. -/
def Obligations.StepKeepsTheKeyInvariant : Prop :=
  ∀ s t : State, s.WF → s.KeyInv → step s = .next t → t.KeyInv

/-! ### Decode, issue and commit -/

/-- R112, R113: on the ENGINE's turn with a command in flight, the step is `exec` of the decoded command. That it is the
ENGINE's turn when nothing is pending is the model's reading of weak fairness (log 7). -/
def Obligations.EngineStepRunsTheDecodedCommand : Prop :=
  ∀ (s : State) (es : List Event) (i : Instr), s.build.wf = true → EngineTurn s es → s.busy = true →
    decode s.curCmd = .ok i → step s = exec i (withPending s es)

/-- The model's own `withFetchWord` (log 2): the next step is the completion of the command placed. -/
def Obligations.PlacedCommandRunsNext : Prop :=
  ∀ (s : State) (i : Instr), s.build.wf = true →
    step (s.withFetchWord 32 (encode i).toNat) = exec i (issue (encode i) s)

/-- R101, R106 and the vectors V6.1 to V6.3 of 95_test_vectors.md: words written out from the table. -/
def Obligations.TableWordsDecodeToTheirCommand : Prop :=
  decodeTableWord 32 0x00000001 = some .modexp ∧ decodeTableWord 32 0x00000002 = some .modinv ∧
    decodeTableWord 32 0x00000003 = some .keygen ∧ decodeTableWord 32 0x00000004 = some .encodeMsg ∧
    decodeTableWord 32 0x00000005 = some .decodeBlk ∧ decodeTableWord 32 0x00000006 = some .encrypt ∧
    decodeTableWord 32 0x00000007 = some .decrypt ∧ decodeTableWord 32 0x00000008 = some .checkpad ∧ decodeTableWord 32 0x00000109 = none ∧
    decodeTableWord 32 0x00000000 = none ∧ decodeTableWord 32 0x00000009 = none

/-- R101: the opcode map, over all 2^32 words. -/
def Obligations.LegalWordsAreOneToEight : Prop :=
  decode 0x00000001#32 = .ok .modexp ∧ decode 0x00000002#32 = .ok .modinv ∧ decode 0x00000003#32 = .ok .keygen ∧
    decode 0x00000004#32 = .ok .encodeMsg ∧ decode 0x00000005#32 = .ok .decodeBlk ∧
    decode 0x00000006#32 = .ok .encrypt ∧ decode 0x00000007#32 = .ok .decrypt ∧
    decode 0x00000008#32 = .ok .checkpad ∧
    ∀ w : Word, (∃ i, decode w = .ok i) ↔ 1 ≤ w.toNat ∧ w.toNat ≤ 8

/-- R100 to R102: decoding gives back every encoded command, and a command has no other word. -/
def Obligations.DecodeAndEncodeAgree : Prop :=
  (∀ i : Instr, i.wf = true → decode (encode i) = .ok i) ∧ ∀ (w : Word) (i : Instr), decode w = .ok i → w = encode i

/-- R103: which words are illegal, and that an illegal command changes ERR, DONE and BUSY only. -/
def Obligations.IllegalWordReportsErrIllegal : Prop :=
  (∀ w : Word, (∃ e, decode w = .error e) ↔ w.toNat / 256 ≠ 0 ∨ w.toNat % 256 = 0 ∨ 9 ≤ w.toNat % 256) ∧
    Err.illegal.code = 15#4 ∧
    ∀ (s : State) (es : List Event) (e : DecodeError), s.build.wf = true → EngineTurn s es → s.busy = true →
      decode s.curCmd = .error e →
      step s = .next { withPending s es with err := .illegal, done := true, busy := false }

/-- R111, R79: a write to CMD while idle issues, legal or not; while busy it is ignored. -/
def Obligations.CommandWriteIssues : Prop :=
  ∀ (s : State) (a : Access) (es : List Event) (v : Word), s.build.wf = true → AccessTurn s a es →
    a.op = .write v → a.offset s.build = 0x0000 →
    (s.busy = false →
      step s = .next { withPending s es with curCmd := v, busy := true, done := false, err := .none }) ∧
    (s.busy = true → step s = .next (withPending s es))

/-- R213, R112: an idle block keeps all its state on the ENGINE's turn (that the turn is then empty is the model's
choice, log 6). -/
def Obligations.IdleBlockKeepsItsState : Prop :=
  ∀ (s : State) (es : List Event), s.build.wf = true → EngineTurn s es → s.busy = false →
    step s = .next (withPending s es)

/-! ### Host accesses -/

/-- R82: what a read does, that only a write to CMD has an effect beyond storing, and that every write but one to CMD
while idle is idempotent. -/
def Obligations.AccessesHaveNoSideEffect : Prop :=
  (∀ (s : State) (a : Access) (es : List Event), s.build.wf = true → AccessTurn s a es → a.op = .read →
    step s = .next { s with host :=
      { pending := es
        replies := { addr := a.addr, data := memRead s (a.offset s.build) } :: s.host.replies } }) ∧
  (∀ (s : State) (a : Access) (es : List Event) (v : Word), s.build.wf = true → AccessTurn s a es →
    a.op = .write v → step s = .next (memWrite (withPending s es) (a.offset s.build) v)) ∧
  (∀ (s : State) (off : Nat) (v : Word), off ≠ 0x0000 ∨ s.busy = true →
    (memWrite s off v = s ∨ memWrite s off v = { s with msgLen := v } ∨ memWrite s off v = { s with ctLen := v } ∨
      ∃ x i, off = regionBase x + i ∧ memWrite s off v = s.setBuf x (putWord (s.buf x) i v)) ∧
    memWrite (memWrite s off v) off v = memWrite s off v)

/-- R43, R81, R200: STATUS as a host reads it; reserved bits read 0; the code of every error, and that 8 to 14 never
occur. -/
def Obligations.StatusReadShowsTheFields : Prop :=
  (Err.none.code = 0#4 ∧ Err.domain.code = 1#4 ∧ Err.encoding.code = 2#4 ∧ Err.padFormat.code = 3#4 ∧
    Err.length.code = 4#4 ∧ Err.operand.code = 5#4 ∧ Err.noKey.code = 6#4 ∧ Err.keyLocked.code = 7#4 ∧
    Err.illegal.code = 15#4) ∧
  (∀ e : Err, ¬ (8 ≤ e.code.toNat ∧ e.code.toNat ≤ 14)) ∧
  ∀ s : State, s.WF →
    (memRead s 0x0004).getLsbD 0 = s.busy ∧ (memRead s 0x0004).getLsbD 1 = s.done ∧
    (memRead s 0x0004).extractLsb' 2 2 = 0#2 ∧ (memRead s 0x0004).extractLsb' 4 4 = s.err.code ∧
    (memRead s 0x0004).getLsbD 8 = s.oracle ∧ (memRead s 0x0004).getLsbD 9 = s.wrap ∧
    (memRead s 0x0004).getLsbD 10 = s.keyValid ∧ (memRead s 0x0004).extractLsb' 11 21 = 0#21 ∧
    ¬ ((memRead s 0x0004).getLsbD 0 = true ∧ (memRead s 0x0004).getLsbD 1 = true) ∧
    ((memRead s 0x0004).getLsbD 0 = true → (memRead s 0x0004).extractLsb' 4 4 = 0#4)

/-- R44: CFG holds B in bits 15:0 and zeros above, ignores writes, and is the same after every step. -/
def Obligations.CfgHoldsTheBlockSize : Prop :=
  ∀ s : State, s.WF →
    memRead s 0x0010 = BitVec.ofNat 32 s.B ∧ ((memRead s 0x0010).extractLsb' 0 16).toNat = s.B ∧
    (memRead s 0x0010).extractLsb' 16 16 = 0#16 ∧ (∀ v : Word, memWrite s 0x0010 v = s) ∧
    ∀ t, step s = .next t → memRead t 0x0010 = memRead s 0x0010

/-- R73: the four bytes of a word of a region, read and written, and that a write leaves every other byte and
register alone. -/
def Obligations.RegionWordsAreBigEndian : Prop :=
  ∀ (s : State) (x : BigReg) (k : Nat) (v : Word), s.WF → 4 * k < s.B →
    (hostReadable x = true →
      (memRead s (regionBase x + 4 * k)).extractLsb' 24 8 = byteAt (s.buf x) (4 * k) ∧
      (memRead s (regionBase x + 4 * k)).extractLsb' 16 8 = byteAt (s.buf x) (4 * k + 1) ∧
      (memRead s (regionBase x + 4 * k)).extractLsb' 8 8 = byteAt (s.buf x) (4 * k + 2) ∧
      (memRead s (regionBase x + 4 * k)).extractLsb' 0 8 = byteAt (s.buf x) (4 * k + 3)) ∧
    (s.busy = false → hostWritable s x = true →
      ∃ b : Buf, memWrite s (regionBase x + 4 * k) v = s.setBuf x b ∧ b.length = s.B ∧
        byteAt b (4 * k) = v.extractLsb' 24 8 ∧ byteAt b (4 * k + 1) = v.extractLsb' 16 8 ∧
        byteAt b (4 * k + 2) = v.extractLsb' 8 8 ∧ byteAt b (4 * k + 3) = v.extractLsb' 0 8 ∧
        ∀ j, j < 4 * k ∨ 4 * k + 4 ≤ j → byteAt b j = byteAt (s.buf x) j)

/-- R73, R81: a word written is read back, and every other word of the window reads as before. -/
def Obligations.WrittenWordIsReadBack : Prop :=
  ∀ (s : State) (x : BigReg) (k : Nat) (v : Word), s.WF → 4 * k < s.B → s.busy = false → hostWritable s x = true →
    (hostReadable x = true →
      memRead (memWrite s (regionBase x + 4 * k) v) (regionBase x + 4 * k) = v) ∧
    ∀ off, off % 4 = 0 → off ≠ regionBase x + 4 * k →
      memRead (memWrite s (regionBase x + 4 * k) v) off = memRead s off

/-- R33, R36: MSG_LEN and CT_LEN are write-any-read-same, and a write to one changes nothing else. -/
def Obligations.LengthRegistersKeepWhatIsWritten : Prop :=
  ∀ (s : State) (v : Word), s.busy = false →
    memWrite s 0x0008 v = { s with msgLen := v } ∧ memWrite s 0x000C v = { s with ctLen := v } ∧
    memRead (memWrite s 0x0008 v) 0x0008 = v ∧ memRead (memWrite s 0x000C v) 0x000C = v

/-- R75: words past B in a region. -/
def Obligations.WordsPastTheRegisterAreInert : Prop :=
  ∀ (s : State) (x : BigReg) (i : Nat) (v : Word), i % 4 = 0 → i < 0x1000 → s.B ≤ i →
    memRead s (regionBase x + i) = 0#32 ∧ memWrite s (regionBase x + i) v = s

/-- R76: unmapped offsets. -/
def Obligations.UnmappedOffsetsAreInert : Prop :=
  ∀ (s : State) (off : Nat) (v : Word),
    (0x0014 ≤ off ∧ off ≤ 0x0FFF) ∨ (0xC000 ≤ off ∧ off ≤ 0xFFFF) → memRead s off = 0#32 ∧ memWrite s off v = s

/-- R77: writes to read-only registers, reads of write-only ones, and that no access, nor anything else, faults. -/
def Obligations.WrongDirectionAccessesAreInert : Prop :=
  (∀ (s : State) (v : Word), memWrite s 0x0004 v = s ∧ memWrite s 0x0010 v = s ∧ memRead s 0x0000 = 0#32) ∧
  (∀ (s : State) (v : Word) (i : Nat), i < 0x1000 →
    memWrite s (regionBase .res + i) v = s ∧ memWrite s (regionBase .kn + i) v = s ∧
    memRead s (regionBase .kp + i) = 0#32 ∧ memRead s (regionBase .kq + i) = 0#32) ∧
  ∀ (s : State) (f : Fault), step s ≠ .fault f

/-- R78: the key lock. -/
def Obligations.LockedKeyIgnoresWrites : Prop :=
  ∀ (s : State) (v : Word) (i : Nat), s.keyValid = true → i < 0x1000 →
    memWrite s (regionBase .kp + i) v = s ∧ memWrite s (regionBase .kq + i) v = s ∧
    memWrite s (regionBase .ke + i) v = s

/-- R79: writes while busy. -/
def Obligations.BusyBlockIgnoresWrites : Prop :=
  ∀ (s : State) (a : Access) (es : List Event) (v : Word), s.build.wf = true → AccessTurn s a es →
    a.op = .write v → s.busy = true → step s = .next (withPending s es)

/-- R80: from issue until the ENGINE moves, whatever accesses the bus delivers, every offset but STATUS reads as
before the issue, and STATUS shows BUSY = 1, DONE = 0, ERR = 0 and the other fields as they stood. -/
def Obligations.BusyReadsShowTheStateAtIssue : Prop :=
  ∀ (s t : State) (v : Word) (n : Nat), s.busy = false → n ≤ s.host.pending.length →
    (∀ e ∈ s.host.pending.take n, e.isAccess = true) → RunsTo n (issue v s) t →
    (∀ off, off ≠ 0x0004 → memRead t off = memRead s off) ∧
    t.busy = true ∧ t.done = false ∧ t.err = .none ∧ t.oracle = s.oracle ∧ t.wrap = s.wrap ∧
    t.keyValid = s.keyValid ∧
    memRead t 0x0004 = statusWord { s with busy := true, done := false, err := .none }

/-- R79, R86, R245: while busy, host accesses change nothing of the block, so a command computes on the operands as
they stood at issue. -/
def Obligations.BusyBlockKeepsItsOperands : Prop :=
  ∀ (s t : State) (n : Nat), s.busy = true → n ≤ s.host.pending.length →
    (∀ e ∈ s.host.pending.take n, e.isAccess = true) → RunsTo n s t →
    t = { s with host := t.host } ∧ t.host.pending = s.host.pending.drop n

/-- R244, as the model reads it (log 23): a host that keeps the hazard rule has no write dropped for BUSY: each is
performed as on an idle block. -/
def Obligations.HazardFreeWriteIsPerformed : Prop :=
  ∀ (s : State) (a : Access) (es : List Event) (v : Word), s.build.wf = true → AccessTurn s a es →
    a.op = .write v → HazardFree s (.access a) →
    step s = .next (memWrite { withPending s es with busy := false } (a.offset s.build) v)

/-- R72: an access that is not 32 bits wide, or is misaligned, has no step; an aligned 32-bit access has one. For one
delivered during a reset step see `ResetDropsEveryAccess`. -/
def Obligations.AccessOutsideTheContractIsRefused : Prop :=
  ∀ (s : State) (a : Access) (es : List Event), s.build.wf = true → s.host.pending = .access a :: es →
    a.routed s.build = true →
    (a.bytes ≠ 4 ∨ a.offset s.build % 4 ≠ 0 → step s = .refused .accessOutsideContract) ∧
    (a.bytes = 4 ∧ a.offset s.build % 4 = 0 → ∃ t, step s = .next t)

/-- R6, R214: a configuration that breaks the limits of R6 is refused. -/
def Obligations.IllegalConfigurationIsRefused : Prop :=
  ∀ s : State,
    ¬ (s.B % 4 = 0 ∧ 4 ≤ s.B ∧ s.B ≤ 4096 ∧ s.build.keyP0 < 256 ^ s.B ∧ s.build.keyQ0 < 256 ^ s.B ∧
      s.build.keyE0 < 256 ^ s.B) →
    step s = .refused .illegalConfiguration

/-- R70: an access whose address is not in the window is not the block's. That this goes by the address the access
starts at, whatever its width, is the model's choice (log 8): so a wide access from just below BASE does nothing. -/
def Obligations.OtherAddressesAreNotServed : Prop :=
  ∀ (s : State) (a : Access) (es : List Event), s.build.wf = true → s.host.pending = .access a :: es →
    ¬ (s.build.base ≤ a.addr ∧ a.addr < s.build.base + 0x10000) → step s = .next (withPending s es)

/-! ### The commands -/

/-- R122: MODEXP, both outcomes, and that nothing but RES and BUSY, DONE, ERR changes. -/
def Obligations.ModexpComputesThePower : Prop :=
  ∀ s : State, s.WF →
    encode .modexp = 0x00000001#32 ∧
    (s.val .opm = 0 → exec .modexp s = .next { s with err := .operand, done := true, busy := false }) ∧
    (s.val .opm ≠ 0 →
      ∃ t, exec .modexp s = .next t ∧ t = { s with res := t.res, err := .none, done := true, busy := false } ∧
        t.res.length = s.B ∧ t.val .res = s.val .opa ^ s.val .opb % s.val .opm)

/-- R123, with the uniqueness of R121: MODINV, its three outcomes, and that nothing but RES and BUSY, DONE, ERR
changes. -/
def Obligations.ModinvComputesTheInverse : Prop :=
  ∀ s : State, s.WF →
    encode .modinv = 0x00000002#32 ∧
    (s.val .opm = 0 → exec .modinv s = .next { s with err := .operand, done := true, busy := false }) ∧
    (s.val .opm ≠ 0 → Nat.gcd (s.val .opa) (s.val .opm) ≠ 1 →
      exec .modinv s = .next { s with err := .domain, done := true, busy := false }) ∧
    (s.val .opm ≠ 0 → Nat.gcd (s.val .opa) (s.val .opm) = 1 →
      ∃ t, exec .modinv s = .next t ∧ t = { s with res := t.res, err := .none, done := true, busy := false } ∧
        t.res.length = s.B ∧ t.val .res < s.val .opm ∧
        s.val .opa * t.val .res % s.val .opm = 1 % s.val .opm ∧
        ∀ d, d < s.val .opm → s.val .opa * d % s.val .opm = 1 % s.val .opm → d = t.val .res)

/-- R140, R141: KEYGEN, its checks in their order, and the key it installs. -/
def Obligations.KeygenBuildsTheKeyOnce : Prop :=
  ∀ s : State, s.WF →
    encode .keygen = 0x00000003#32 ∧
    (s.keyValid = true → exec .keygen s = .next { s with err := .keyLocked, done := true, busy := false }) ∧
    (s.keyValid = false → s.val .kp < 2 ∨ s.val .kq < 2 ∨ 256 ^ s.B ≤ s.val .kp * s.val .kq →
      exec .keygen s = .next { s with err := .operand, done := true, busy := false }) ∧
    (s.keyValid = false → 2 ≤ s.val .kp → 2 ≤ s.val .kq → s.val .kp * s.val .kq < 256 ^ s.B →
      Nat.gcd (s.val .ke) ((s.val .kp - 1) * (s.val .kq - 1)) ≠ 1 →
      exec .keygen s = .next { s with err := .domain, done := true, busy := false }) ∧
    (s.keyValid = false → 2 ≤ s.val .kp → 2 ≤ s.val .kq → s.val .kp * s.val .kq < 256 ^ s.B →
      Nat.gcd (s.val .ke) ((s.val .kp - 1) * (s.val .kq - 1)) = 1 →
      ∃ t, exec .keygen s = .next t ∧
        t = { s with kn := t.kn, kphi := (s.val .kp - 1) * (s.val .kq - 1), kd := t.kd, keyValid := true,
                     err := .none, done := true, busy := false } ∧
        t.kn.length = s.B ∧ t.val .kn = s.val .kp * s.val .kq ∧
        t.kd < (s.val .kp - 1) * (s.val .kq - 1) ∧
        t.kd * s.val .ke % ((s.val .kp - 1) * (s.val .kq - 1)) = 1 % ((s.val .kp - 1) * (s.val .kq - 1)))

/-- R150, R151: ENCODE, both outcomes; every byte of the block, for every sequence of draws; exactly B - 3 - L
draws, and none on error. -/
def Obligations.EncodePadsTheMessage : Prop :=
  ∀ s : State, s.WF →
    encode .encodeMsg = 0x00000004#32 ∧
    (s.B - 3 < s.msgLen.toNat →
      exec .encodeMsg s = .next { s with err := .encoding, done := true, busy := false }) ∧
    ∀ k, s.msgLen.toNat + k = s.B - 3 →
      ∃ t, exec .encodeMsg s = .next t ∧
        t = { s with blk := t.blk, rng := { s.rng with pos := s.rng.pos + k }, err := .none, done := true,
                     busy := false } ∧
        t.blk.length = s.B ∧ byteAt t.blk 0 = 0x00#8 ∧ byteAt t.blk 1 = 0x02#8 ∧
        (∀ i, i < k → byteAt t.blk (2 + i) =
          if s.rng.byteAt (s.rng.pos + i) = 0x00#8 then 0xFF#8 else s.rng.byteAt (s.rng.pos + i)) ∧
        byteAt t.blk (2 + k) = 0x00#8 ∧
        ∀ j, j < s.msgLen.toNat → byteAt t.blk (3 + k + j) = byteAt s.msg j

/-- R152, R153: DECODE, both outcomes; the separator is the first zero byte from index 2; the tail of MSG is
cleared. -/
def Obligations.DecodeUnpadsTheBlock : Prop :=
  ∀ s : State, s.WF →
    encode .decodeBlk = 0x00000005#32 ∧
    (byteAt s.blk 0 ≠ 0x00#8 ∨ byteAt s.blk 1 ≠ 0x02#8 ∨ (∀ j, 2 ≤ j → j < s.B → byteAt s.blk j ≠ 0x00#8) →
      exec .decodeBlk s = .next { s with err := .padFormat, done := true, busy := false }) ∧
    ∀ j, byteAt s.blk 0 = 0x00#8 → byteAt s.blk 1 = 0x02#8 → 2 ≤ j → j < s.B → byteAt s.blk j = 0x00#8 →
      (∀ i, 2 ≤ i → i < j → byteAt s.blk i ≠ 0x00#8) →
      ∃ t, exec .decodeBlk s = .next t ∧
        t = { s with msg := t.msg, msgLen := t.msgLen, err := .none, done := true, busy := false } ∧
        t.msg.length = s.B ∧ t.msgLen.toNat = s.B - 1 - j ∧
        (∀ i, i < s.B - 1 - j → byteAt t.msg i = byteAt s.blk (j + 1 + i)) ∧
        ∀ i, s.B - 1 - j ≤ i → i < s.B → byteAt t.msg i = 0x00#8

/-- From the pseudocode of R170: ENCRYPT, both outcomes; a block not below n is reduced and flagged. For the key p = q = 2
with e = 0 the value is the pseudocode's, 0^0 = 1, and not the corner case's, the model's choice (log 25). -/
def Obligations.EncryptComputesTheCiphertext : Prop :=
  ∀ s : State, s.WF → s.KeyInv →
    encode .encrypt = 0x00000006#32 ∧
    (s.keyValid = false → exec .encrypt s = .next { s with err := .noKey, done := true, busy := false }) ∧
    (s.keyValid = true →
      ∃ t, exec .encrypt s = .next t ∧
        t = { s with ct := t.ct, ctLen := t.ctLen, wrap := decide (s.val .kn ≤ s.val .blk), err := .none,
                     done := true, busy := false } ∧
        t.ct.length = s.B ∧ t.val .ct = s.val .blk ^ s.val .ke % s.val .kn ∧ t.ctLen.toNat = s.B)

/-- From the pseudocode of R171: DECRYPT, its three outcomes, the missing key checked before the length. For the key
p = q = 2, whose d is 0, the value is the pseudocode's, 0^0 = 1, and not the corner case's, the model's choice (log 25). -/
def Obligations.DecryptComputesTheBlock : Prop :=
  ∀ s : State, s.WF → s.KeyInv →
    encode .decrypt = 0x00000007#32 ∧
    (s.keyValid = false → exec .decrypt s = .next { s with err := .noKey, done := true, busy := false }) ∧
    (s.keyValid = true → s.ctLen.toNat ≠ s.B →
      exec .decrypt s = .next { s with err := .length, done := true, busy := false }) ∧
    (s.keyValid = true → s.ctLen.toNat = s.B →
      ∃ t, exec .decrypt s = .next t ∧
        t = { s with blk := t.blk, wrap := decide (s.val .kn ≤ s.val .ct), err := .none, done := true,
                     busy := false } ∧
        t.blk.length = s.B ∧ t.val .blk = s.val .ct ^ s.kd % s.val .kn)

/-- R190: CHECKPAD always succeeds, writes ORACLE only, and reports whether the two top bytes of the decryption are
00 02. -/
def Obligations.CheckpadReportsOneBit : Prop :=
  ∀ s : State, s.WF → s.KeyInv →
    encode .checkpad = 0x00000008#32 ∧
    ∃ t, exec .checkpad s = .next t ∧
      t = { s with oracle := t.oracle, err := .none, done := true, busy := false } ∧
      (t.oracle = true ↔ s.keyValid = true ∧ s.ctLen.toNat = s.B ∧
        2 * 256 ^ (s.B - 2) ≤ s.val .ct ^ s.kd % s.val .kn ∧
        s.val .ct ^ s.kd % s.val .kn < 3 * 256 ^ (s.B - 2))

/-! ### All commands -/

/-- R14, R202: every command completes on every state; one that errs changes BUSY, DONE and ERR only. -/
def Obligations.EveryCommandCompletesPrecisely : Prop :=
  ∀ (i : Instr) (s : State), ∃ t, exec i s = .next t ∧ t.busy = false ∧ t.done = true ∧
    (t.err ≠ .none → t = { s with err := t.err, done := true, busy := false })

/-- R104: a command writes only its destinations, and none of them on error; what it writes depends only on its
operands; CHECKPAD never errs. -/
def Obligations.CommandsUseOnlyTheirOperands : Prop :=
  ∀ i : Instr,
    (∀ s t : State, exec i s = .next t →
      WritesOnlyIts i s t ∧ (t.err ≠ .none → t = { s with err := t.err, done := t.done, busy := t.busy }) ∧
      (i = .checkpad → t.err = .none)) ∧
    ∀ s s' t t' : State, SameReads i s s' → exec i s = .next t → exec i s' = .next t' →
      t.err = t'.err ∧ (t.err = .none → SameWrites i t t')

/-- R41, R43: what moves KEY_VALID, ORACLE and WRAP, over every step: each only at the completion of its command. -/
def Obligations.StatusBitsMoveOnlyByTheirRule : Prop :=
  ∀ s t : State, step s = .next t → (∀ lost es, s.host.pending ≠ .reset lost :: es) →
    (t.keyValid ≠ s.keyValid →
      s.busy = true ∧ decode s.curCmd = .ok .keygen ∧ t.done = true ∧ t.err = .none ∧ t.keyValid = true) ∧
    (t.oracle ≠ s.oracle → s.busy = true ∧ decode s.curCmd = .ok .checkpad ∧ t.done = true) ∧
    (t.wrap ≠ s.wrap →
      s.busy = true ∧ (decode s.curCmd = .ok .encrypt ∨ decode s.curCmd = .ok .decrypt) ∧ t.done = true ∧
        t.err = .none)

/-! ### Key material over runs -/

/-- R142: after a successful KEYGEN nothing but reset changes the key material, over a run of any length that ends
before the next reset. -/
def Obligations.KeyIsImmutableUntilReset : Prop :=
  (∀ s : State, s.keyValid = true →
    exec .keygen s = .next { s with err := .keyLocked, done := true, busy := false }) ∧
  ∀ (n : Nat) (s t : State), s.keyValid = true → (∀ e ∈ s.host.pending.take n, e.isReset = false) →
    RunsTo n s t →
    t.kp = s.kp ∧ t.kq = s.kq ∧ t.ke = s.ke ∧ t.kn = s.kn ∧ t.kphi = s.kphi ∧ t.kd = s.kd ∧ t.keyValid = true

/-- R143: the key invariant after a successful KEYGEN, and the default key's values. -/
def Obligations.KeygenGivesAnInversePair : Prop :=
  (∀ s t : State, s.WF → exec .keygen s = .next t → t.err = .none → 1 < t.kphi →
    t.kd * t.val .ke % t.kphi = 1 ∧ Nat.gcd (t.val .ke) t.kphi = 1) ∧
  ∃ t, exec .keygen State.reset = .next t ∧ t.kphi = 1000000000000000020000000000000000036 ∧
    t.kd = 711491218700886536347101637243084085 ∧ 65537 * t.kd % t.kphi = 1

/-- R48, R144: a step that is not the completion of KEYGEN, DECRYPT or CHECKPAD tells p, q, phi and d apart by
nothing: two states that differ only there step alike, with the same replies to the hosts. -/
def Obligations.PrivateKeyShowsOnlyInItsCommands : Prop :=
  ∀ s t s' : State, SameButSecrets s t →
    (∀ es, EngineTurn s es → s.busy = true →
      decode s.curCmd ≠ .ok .keygen ∧ decode s.curCmd ≠ .ok .decrypt ∧ decode s.curCmd ≠ .ok .checkpad) →
    step s = .next s' → ∃ t', step t = .next t' ∧ SameButSecrets s' t'

/-! ### The codec, the cipher and the oracle together -/

/-- R154: ENCODE then DECODE, whatever was drawn, with any issue of a command word between them. -/
def Obligations.CodecRoundTripRestoresTheMessage : Prop :=
  ∀ s : State, s.WF → s.msgLen.toNat ≤ s.B - 3 →
    ∃ t, exec .encodeMsg s = .next t ∧ t.err = .none ∧
      ∀ w : Word, ∃ u, exec .decodeBlk (issue w t) = .next u ∧ u.err = .none ∧ u.msgLen = s.msgLen ∧
        ∀ j, j < s.msgLen.toNat → byteAt u.msg j = byteAt s.msg j

/-- R172: for BE(BLK) < n, ENCRYPT then DECRYPT restores BLK exactly when m^(e*d) mod n = m. -/
def Obligations.CipherRoundTripExactlyWhen : Prop :=
  ∀ s : State, s.WF → s.KeyInv → s.keyValid = true → s.val .blk < s.val .kn →
    ∃ t, exec .encrypt s = .next t ∧ t.err = .none ∧ t.wrap = false ∧
      ∀ w : Word, ∃ u, exec .decrypt (issue w t) = .next u ∧ u.err = .none ∧ u.wrap = false ∧
        (u.blk = s.blk ↔ s.val .blk ^ (s.val .ke * s.kd) % s.val .kn = s.val .blk)

/-- R172: with distinct primes p and q the round trip restores every block below n. -/
def Obligations.CipherRoundTripForDistinctPrimes : Prop :=
  ∀ s : State, s.WF → s.KeyInv → s.keyValid = true → s.val .blk < s.val .kn →
    Nat.Prime (s.val .kp) → Nat.Prime (s.val .kq) → s.val .kp ≠ s.val .kq →
    ∃ t, exec .encrypt s = .next t ∧ t.err = .none ∧
      ∀ w : Word, ∃ u, exec .decrypt (issue w t) = .next u ∧ u.err = .none ∧ u.blk = s.blk

/-- R192: a padded block below n, under a key for which it round-trips, encrypts to a ciphertext the oracle
accepts. -/
def Obligations.OracleAcceptsEncryptedPadding : Prop :=
  ∀ s : State, s.WF → s.KeyInv → s.keyValid = true → s.val .blk < s.val .kn →
    s.val .blk ^ (s.val .ke * s.kd) % s.val .kn = s.val .blk →
    byteAt s.blk 0 = 0x00#8 → byteAt s.blk 1 = 0x02#8 →
    ∃ t, exec .encrypt s = .next t ∧
      ∀ w : Word, ∃ u, exec .checkpad (issue w t) = .next u ∧ u.oracle = true

/-- R192: for a key whose decryption permutes [0, n), with 3*256^(B-2) <= n, exactly 256^(B-2) of the n ciphertexts
below n are accepted. -/
def Obligations.OracleAcceptsExactlyItsShare : Prop :=
  ∀ s : State, s.WF → s.KeyInv → s.keyValid = true → s.ctLen.toNat = s.B → 3 * 256 ^ (s.B - 2) ≤ s.val .kn →
    (∀ c c', c < s.val .kn → c' < s.val .kn → c ^ s.kd % s.val .kn = c' ^ s.kd % s.val .kn → c = c') →
    Set.ncard { c | c < s.val .kn ∧ ∃ t, exec .checkpad (s.setVal .ct c) = .next t ∧ t.oracle = true } =
      256 ^ (s.B - 2)

/-- R170, R190, 90_conflicts.md C5: with n at most 2*256^(B-2), as for the default key at B = 128, every padded block
wraps and no ciphertext is accepted. -/
def Obligations.SmallModulusAlwaysWraps : Prop :=
  ∀ s : State, s.WF → s.KeyInv → s.keyValid = true → s.val .kn ≤ 2 * 256 ^ (s.B - 2) →
    (byteAt s.blk 0 = 0x00#8 → byteAt s.blk 1 = 0x02#8 →
      ∃ t, exec .encrypt s = .next t ∧ t.err = .none ∧ t.wrap = true) ∧
    ∃ t, exec .checkpad s = .next t ∧ t.oracle = false

/-! ### Runs -/

/-- R14, R72, R77: with a legal configuration and a host that keeps the contract, no run stops. The model's choice, and no
word of these rules: that a reset is within the contract also where an access lost in it breaks R72 (log 27), that so is a
wide access from just below BASE, which does nothing (log 8), that the ENGINE's turn while idle is an empty step (log 6),
that with nothing pending the ENGINE moves (log 7), and that a POLL loop is one event (log 14). -/
def Obligations.InContractRunNeverStops : Prop :=
  ∀ s : State, s.build.wf = true → InContract s → SafeRun s

/-- R247, R249, under the model's reading of weak fairness (log 7, log 14): one step after what its pending events can
take (`Event.cost`), nothing is left to happen, and so the run of every host's program is over. Also the model's choice:
that a reset is within the contract where an access lost in it breaks R72 (log 27), that so is a wide access from just below
BASE (log 8), and that the ENGINE's turn while idle is an empty step (log 6). -/
def Obligations.InContractRunEnds : Prop :=
  ∀ s : State, s.build.wf = true → InContract s → ∃ t, RunsTo ((s.host.pending.map Event.cost).sum + 1) s t ∧
    Quiet t ∧ ∀ h, RunOver h t

/-- R249: a run with BUSY = 1 or an access of the host left is not over. That one that is over stays over, whatever other
agents do, until another host's write to CMD issues a command, is no word of R249: it follows from the model's choice to
take the end as a predicate of the present state (log 26), in which an access lost in a reset does not count (log 24). -/
def Obligations.RunOverStaysUntilAnotherIssue : Prop :=
  (∀ (h : Nat) (s : State), s.busy = true → ¬ RunOver h s) ∧
  (∀ (h : Nat) (s : State) (e : Event), e ∈ s.host.pending → e.ofHost h = true → ¬ RunOver h s) ∧
  ∀ (h : Nat) (s t : State), RunOver h s → step s = .next t →
    RunOver h t ∨ ∃ a es v, AccessTurn s a es ∧ a.host ≠ h ∧ a.op = .write v ∧ a.offset s.build = 0x0000 ∧
      t = issue v (withPending s es)

/-- R117: `LDI X, v` on an idle block leaves v in X and changes nothing else. -/
def Obligations.LdiLineLoadsTheInteger : Prop :=
  ∀ (h : Nat) (s : State) (x : BigReg) (v : Nat), s.WF → s.busy = false → hostWritable s x = true → v < 256 ^ s.B →
    s.host.pending = lineEvents h s.build (.ldi x v) →
    ∃ t, RunsTo (s.B / 4) s t ∧ t = { s.setBuf x (t.buf x) with host := { s.host with pending := [] } } ∧
      (t.buf x).length = s.B ∧ t.val x = v

/-- R117: `LDB X, data` on an idle block, up to the end of the region: the data in X, a last word padded with zeros,
the bytes after it as they were, and data past the register ignored (R75). -/
def Obligations.LdbLineStoresTheBytes : Prop :=
  ∀ (h : Nat) (s : State) (x : BigReg) (data : List Byte), s.WF → s.busy = false → hostWritable s x = true →
    data.length ≤ 0x1000 → s.host.pending = lineEvents h s.build (.ldb x data) →
    ∃ t, RunsTo ((data.length + 3) / 4) s t ∧
      t = { s.setBuf x (t.buf x) with host := { s.host with pending := [] } } ∧ (t.buf x).length = s.B ∧
      ∀ i, i < s.B → byteAt (t.buf x) i =
        if i < data.length then byteAt data i
        else if i < 4 * ((data.length + 3) / 4) then 0x00#8 else byteAt (s.buf x) i

/-- R117: one round of a POLL loop reads STATUS and changes nothing of the block; the loop is over when it saw
BUSY = 0 and goes on when it saw BUSY = 1. Which events come before its next read is the model's choice (log 14). -/
def Obligations.PollReadsUntilIdle : Prop :=
  ∀ (s : State) (h : Nat) (gaps : List Nat) (es : List Event), s.build.wf = true →
    s.host.pending = .poll h gaps :: es →
    ∃ rest : List Event,
      step s = .next { s with host :=
        { pending := rest
          replies := { addr := s.build.base + 0x0004, data := statusWord s } :: s.host.replies } } ∧
      (s.busy = false → rest = es) ∧
      (s.busy = true → gaps = [] → rest = .engine :: .poll h [] :: es) ∧
      ∀ g gs, s.busy = true → gaps = g :: gs →
        ∃ k, k ≤ g ∧ rest = es.take k ++ .poll h gs :: es.drop k ∧ (∀ e ∈ es.take k, e.ofHost h = false) ∧
          (k < g → ∀ e ∈ (es.drop k).head?, e.ofHost h = true)

/-- R117: `RUN c` on an idle block: k reads see the block busy, and the last one sees what the command left. That k
reads come before the completion is the model's choice (log 14). -/
def Obligations.RunLineCompletesTheCommand : Prop :=
  ∀ (h : Nat) (s : State) (i : Instr) (k : Nat), s.build.wf = true → s.busy = false →
    s.host.pending = lineEvents h s.build (.run i k) →
    ∃ c, exec i (issue (encode i) s) = .next c ∧
      RunsTo (k + 3) s { c with host :=
        { pending := []
          replies := { addr := s.build.base + 0x0004, data := statusWord c } ::
            (List.replicate k { addr := s.build.base + 0x0004, data := statusWord (issue (encode i) s) } ++
              s.host.replies) } }

/-- A reset step answers the same whatever accesses the bus delivers during it, also one outside the contract of R72. That
R241 wins over R72 for such an access is the model's choice (log 27). -/
def Obligations.ResetDropsEveryAccess : Prop :=
  ∀ (s : State) (lost : List Access) (es : List Event), s.build.wf = true → s.host.pending = .reset lost :: es →
    ∃ t, step s = .next t ∧ ∀ lost', step (withPending s (.reset lost' :: es)) = .next t
end

