-- ==== Sys2Proof/Laws/Bytes.lean ====
section
/-! SUPPORT. Byte order: BE and ToBE are inverse (spec R11), and a word written in a region is read back (R73). -/

namespace Sys2Proof.Machine

@[simp] theorem length_toBE (n v : Nat) : (toBE n v).length = n := by
  induction n with
  | zero => rfl
  | succ n ih => simp [toBE, ih]

/-- A buffer of n bytes holds an integer below 256^n (R11). -/
theorem beNat_lt (x : Buf) : beNat x < 256 ^ x.length := by
  induction x with
  | nil => simp [beNat]
  | cons b bs ih =>
    have hb := b.isLt
    simp only [beNat, List.length_cons, pow_succ]
    nlinarith [Nat.pos_of_ne_zero (pow_ne_zero bs.length (by decide : (256 : Nat) ≠ 0))]

theorem beNat_toBE (n v : Nat) : beNat (toBE n v) = v % 256 ^ n := by
  induction n with
  | zero => simp [toBE, beNat, Nat.mod_one]
  | succ n ih =>
    have h256 : (2 : Nat) ^ 8 = 256 := rfl
    simp only [toBE, beNat, length_toBE, ih, BitVec.toNat_ofNat, h256, pow_succ]
    rw [Nat.mod_mul, Nat.mul_comm (256 ^ n), Nat.add_comm]

/-- `BE(ToBE(v)) = v` for an integer that fits (R11). -/
theorem beNat_toBE_of_lt {n v : Nat} (h : v < 256 ^ n) : beNat (toBE n v) = v := by
  rw [beNat_toBE, Nat.mod_eq_of_lt h]

/-- `ToBE(v)` depends on v modulo 256^n only. -/
theorem toBE_mod (n v k : Nat) (h : n ≤ k) : toBE n (v % 256 ^ k) = toBE n v := by
  induction n with
  | zero => rfl
  | succ n ih =>
    have hk : k = n + 1 + (k - (n + 1)) := by omega
    simp only [toBE]
    rw [ih (by omega)]
    congr 1
    apply BitVec.eq_of_toNat_eq
    simp only [BitVec.toNat_ofNat]
    rw [show (2 : Nat) ^ 8 = 256 from rfl, hk, pow_add, pow_succ, Nat.mul_assoc, Nat.mod_mul_right_div_self,
      Nat.mod_mul_right_mod]

/-- A buffer is the ToBE of its integer: ToBE is the unique such buffer (R11). -/
theorem toBE_beNat (x : Buf) : toBE x.length (beNat x) = x := by
  induction x with
  | nil => rfl
  | cons b bs ih =>
    have hlt := beNat_lt bs
    have hpos : 0 < 256 ^ bs.length := Nat.pos_of_ne_zero (pow_ne_zero _ (by decide))
    simp only [List.length_cons, toBE, beNat]
    congr 1
    · apply BitVec.eq_of_toNat_eq
      rw [Nat.mul_comm, Nat.mul_add_div hpos, Nat.div_eq_of_lt hlt]
      simp
    · rw [← toBE_mod bs.length _ bs.length (Nat.le_refl _), Nat.mul_comm, Nat.mul_add_mod,
        Nat.mod_eq_of_lt hlt, ih]

theorem beNat_injective {x y : Buf} (hl : x.length = y.length) (h : beNat x = beNat y) : x = y := by
  rw [← toBE_beNat x, ← toBE_beNat y, hl, h]

/-- Byte `i` of `ToBE(v)` is the digit of weight 256^(n-1-i) (R11). -/
theorem byteAt_toBE {n i : Nat} (v : Nat) (h : i < n) :
    byteAt (toBE n v) i = BitVec.ofNat 8 (v / 256 ^ (n - 1 - i)) := by
  induction n generalizing i with
  | zero => omega
  | succ n ih =>
    cases i with
    | zero => simp [toBE, byteAt]
    | succ i =>
      have := ih (i := i) (by omega)
      simp only [byteAt, toBE, List.getD_cons_succ] at *
      rw [this, show n + 1 - 1 - (i + 1) = n - 1 - i by omega]

theorem toBE_zero (n : Nat) : toBE n 0 = List.replicate n 0#8 := by
  induction n with
  | zero => rfl
  | succ n ih => simp [toBE, ih, List.replicate_succ]

/-- Reading back the four bytes of a word (R73). -/
theorem packWord_wordByte (v : Word) :
    packWord (wordByte v 0) (wordByte v 1) (wordByte v 2) (wordByte v 3) = v := by
  apply BitVec.eq_of_getLsbD_eq
  intro i hi
  simp only [packWord, wordByte, BitVec.getLsbD_append, BitVec.getLsbD_extractLsb']
  by_cases h0 : i < 8
  · simp [h0]
  · by_cases h1 : i - 8 < 8
    · simp [h0, h1]; congr 1; omega
    · by_cases h2 : i - 8 - 8 < 8
      · simp [h0, h1, h2]; congr 1; omega
      · have h3 : i - 8 - 8 - 8 < 8 := by omega
        simp [h0, h1, h2, h3]; congr 1; omega

theorem wordByte_packWord (a b c d : Byte) :
    wordByte (packWord a b c d) 0 = a ∧ wordByte (packWord a b c d) 1 = b ∧
    wordByte (packWord a b c d) 2 = c ∧ wordByte (packWord a b c d) 3 = d := by
  refine ⟨?_, ?_, ?_, ?_⟩ <;>
  · apply BitVec.eq_of_getLsbD_eq
    intro i hi
    simp only [packWord, wordByte, BitVec.getLsbD_append, BitVec.getLsbD_extractLsb']
    have e1 : ¬ 24 + i < 8 := by omega
    have e2 : ¬ 24 + i - 8 < 8 := by omega
    have e3 : ¬ 24 + i - 8 - 8 < 8 := by omega
    have e4 : 24 + i - 8 - 8 - 8 = i := by omega
    have e5 : ¬ 16 + i < 8 := by omega
    have e6 : ¬ 16 + i - 8 < 8 := by omega
    have e7 : 16 + i - 8 - 8 = i := by omega
    simp [hi, e1, e2, e3, e4, e5, e6, e7]

@[simp] theorem length_putWord (x : Buf) (i : Nat) (v : Word) : (putWord x i v).length = x.length := by
  simp [putWord]

/-- A word write changes the four bytes of its word and no other byte (R73). -/
theorem byteAt_putWord (x : Buf) (i j : Nat) (v : Word) (h : i + 3 < x.length) :
    byteAt (putWord x i v) j = if i ≤ j ∧ j < i + 4 then wordByte v (j - i) else byteAt x j := by
  have hj : j = i ∨ j = i + 1 ∨ j = i + 2 ∨ j = i + 3 ∨ ¬ (i ≤ j ∧ j < i + 4) := by omega
  simp only [byteAt, putWord, List.getD_eq_getElem?_getD, List.getElem?_set, List.length_set]
  have l0 : i < x.length := by omega
  have l1 : i + 1 < x.length := by omega
  have l2 : i + 2 < x.length := by omega
  rcases hj with rfl | rfl | rfl | rfl | hj
  · simp [l0]
  · simp [l1]
  · simp [l2]
  · simp [h]
  · rw [if_neg hj, if_neg (by omega), if_neg (by omega), if_neg (by omega), if_neg (by omega)]

theorem wordAt_putWord_self (x : Buf) (i : Nat) (v : Word) (h : i + 3 < x.length) :
    wordAt (putWord x i v) i = v := by
  simp only [wordAt, byteAt_putWord _ _ _ _ h]
  rw [if_pos (by omega), if_pos (by omega), if_pos (by omega), if_pos (by omega)]
  simpa using packWord_wordByte v

theorem wordAt_putWord_of_disjoint (x : Buf) (i j : Nat) (v : Word) (h : i + 3 < x.length)
    (hd : j + 4 ≤ i ∨ i + 4 ≤ j) : wordAt (putWord x i v) j = wordAt x j := by
  simp only [wordAt, byteAt_putWord _ _ _ _ h]
  rw [if_neg (by omega), if_neg (by omega), if_neg (by omega), if_neg (by omega)]

end Sys2Proof.Machine
end

