-- ==== Sys2Proof/Laws/State.lean ====
section
/-! SUPPORT. What each named update of the state does to each field: one lemma per field and update. -/

namespace Sys2Proof.Machine

section
variable (s : State)

/-! `finish`: sets ERR, DONE and BUSY. -/

section
variable (c : Err)

@[simp] theorem finish_build : (finish c s).build = s.build := rfl
@[simp] theorem finish_opa : (finish c s).opa = s.opa := rfl
@[simp] theorem finish_opb : (finish c s).opb = s.opb := rfl
@[simp] theorem finish_opm : (finish c s).opm = s.opm := rfl
@[simp] theorem finish_res : (finish c s).res = s.res := rfl
@[simp] theorem finish_msg : (finish c s).msg = s.msg := rfl
@[simp] theorem finish_msgLen : (finish c s).msgLen = s.msgLen := rfl
@[simp] theorem finish_blk : (finish c s).blk = s.blk := rfl
@[simp] theorem finish_ct : (finish c s).ct = s.ct := rfl
@[simp] theorem finish_ctLen : (finish c s).ctLen = s.ctLen := rfl
@[simp] theorem finish_kp : (finish c s).kp = s.kp := rfl
@[simp] theorem finish_kq : (finish c s).kq = s.kq := rfl
@[simp] theorem finish_ke : (finish c s).ke = s.ke := rfl
@[simp] theorem finish_kn : (finish c s).kn = s.kn := rfl
@[simp] theorem finish_kphi : (finish c s).kphi = s.kphi := rfl
@[simp] theorem finish_kd : (finish c s).kd = s.kd := rfl
@[simp] theorem finish_keyValid : (finish c s).keyValid = s.keyValid := rfl
@[simp] theorem finish_busy : (finish c s).busy = false := rfl
@[simp] theorem finish_done : (finish c s).done = true := rfl
@[simp] theorem finish_err : (finish c s).err = c := rfl
@[simp] theorem finish_oracle : (finish c s).oracle = s.oracle := rfl
@[simp] theorem finish_wrap : (finish c s).wrap = s.wrap := rfl
@[simp] theorem finish_curCmd : (finish c s).curCmd = s.curCmd := rfl
@[simp] theorem finish_rng : (finish c s).rng = s.rng := rfl
@[simp] theorem finish_host : (finish c s).host = s.host := rfl

end

/-! `issue`: sets CUR_CMD, BUSY, DONE and ERR. -/

section
variable (v : Word)

@[simp] theorem issue_build : (issue v s).build = s.build := rfl
@[simp] theorem issue_opa : (issue v s).opa = s.opa := rfl
@[simp] theorem issue_opb : (issue v s).opb = s.opb := rfl
@[simp] theorem issue_opm : (issue v s).opm = s.opm := rfl
@[simp] theorem issue_res : (issue v s).res = s.res := rfl
@[simp] theorem issue_msg : (issue v s).msg = s.msg := rfl
@[simp] theorem issue_msgLen : (issue v s).msgLen = s.msgLen := rfl
@[simp] theorem issue_blk : (issue v s).blk = s.blk := rfl
@[simp] theorem issue_ct : (issue v s).ct = s.ct := rfl
@[simp] theorem issue_ctLen : (issue v s).ctLen = s.ctLen := rfl
@[simp] theorem issue_kp : (issue v s).kp = s.kp := rfl
@[simp] theorem issue_kq : (issue v s).kq = s.kq := rfl
@[simp] theorem issue_ke : (issue v s).ke = s.ke := rfl
@[simp] theorem issue_kn : (issue v s).kn = s.kn := rfl
@[simp] theorem issue_kphi : (issue v s).kphi = s.kphi := rfl
@[simp] theorem issue_kd : (issue v s).kd = s.kd := rfl
@[simp] theorem issue_keyValid : (issue v s).keyValid = s.keyValid := rfl
@[simp] theorem issue_busy : (issue v s).busy = true := rfl
@[simp] theorem issue_done : (issue v s).done = false := rfl
@[simp] theorem issue_err : (issue v s).err = .none := rfl
@[simp] theorem issue_oracle : (issue v s).oracle = s.oracle := rfl
@[simp] theorem issue_wrap : (issue v s).wrap = s.wrap := rfl
@[simp] theorem issue_curCmd : (issue v s).curCmd = v := rfl
@[simp] theorem issue_rng : (issue v s).rng = s.rng := rfl
@[simp] theorem issue_host : (issue v s).host = s.host := rfl

end

/-! `advanceRng`: moves the RNG position. -/

section
variable (k : Nat)

@[simp] theorem advanceRng_build : (advanceRng s k).build = s.build := rfl
@[simp] theorem advanceRng_opa : (advanceRng s k).opa = s.opa := rfl
@[simp] theorem advanceRng_opb : (advanceRng s k).opb = s.opb := rfl
@[simp] theorem advanceRng_opm : (advanceRng s k).opm = s.opm := rfl
@[simp] theorem advanceRng_res : (advanceRng s k).res = s.res := rfl
@[simp] theorem advanceRng_msg : (advanceRng s k).msg = s.msg := rfl
@[simp] theorem advanceRng_msgLen : (advanceRng s k).msgLen = s.msgLen := rfl
@[simp] theorem advanceRng_blk : (advanceRng s k).blk = s.blk := rfl
@[simp] theorem advanceRng_ct : (advanceRng s k).ct = s.ct := rfl
@[simp] theorem advanceRng_ctLen : (advanceRng s k).ctLen = s.ctLen := rfl
@[simp] theorem advanceRng_kp : (advanceRng s k).kp = s.kp := rfl
@[simp] theorem advanceRng_kq : (advanceRng s k).kq = s.kq := rfl
@[simp] theorem advanceRng_ke : (advanceRng s k).ke = s.ke := rfl
@[simp] theorem advanceRng_kn : (advanceRng s k).kn = s.kn := rfl
@[simp] theorem advanceRng_kphi : (advanceRng s k).kphi = s.kphi := rfl
@[simp] theorem advanceRng_kd : (advanceRng s k).kd = s.kd := rfl
@[simp] theorem advanceRng_keyValid : (advanceRng s k).keyValid = s.keyValid := rfl
@[simp] theorem advanceRng_busy : (advanceRng s k).busy = s.busy := rfl
@[simp] theorem advanceRng_done : (advanceRng s k).done = s.done := rfl
@[simp] theorem advanceRng_err : (advanceRng s k).err = s.err := rfl
@[simp] theorem advanceRng_oracle : (advanceRng s k).oracle = s.oracle := rfl
@[simp] theorem advanceRng_wrap : (advanceRng s k).wrap = s.wrap := rfl
@[simp] theorem advanceRng_curCmd : (advanceRng s k).curCmd = s.curCmd := rfl
@[simp] theorem advanceRng_rng : (advanceRng s k).rng = { s.rng with pos := s.rng.pos + k } := rfl
@[simp] theorem advanceRng_host : (advanceRng s k).host = s.host := rfl

end

/-! `reply`: adds to the hosts' replies. -/

section
variable (a : Nat) (w : Word)

@[simp] theorem reply_build : (reply a w s).build = s.build := rfl
@[simp] theorem reply_opa : (reply a w s).opa = s.opa := rfl
@[simp] theorem reply_opb : (reply a w s).opb = s.opb := rfl
@[simp] theorem reply_opm : (reply a w s).opm = s.opm := rfl
@[simp] theorem reply_res : (reply a w s).res = s.res := rfl
@[simp] theorem reply_msg : (reply a w s).msg = s.msg := rfl
@[simp] theorem reply_msgLen : (reply a w s).msgLen = s.msgLen := rfl
@[simp] theorem reply_blk : (reply a w s).blk = s.blk := rfl
@[simp] theorem reply_ct : (reply a w s).ct = s.ct := rfl
@[simp] theorem reply_ctLen : (reply a w s).ctLen = s.ctLen := rfl
@[simp] theorem reply_kp : (reply a w s).kp = s.kp := rfl
@[simp] theorem reply_kq : (reply a w s).kq = s.kq := rfl
@[simp] theorem reply_ke : (reply a w s).ke = s.ke := rfl
@[simp] theorem reply_kn : (reply a w s).kn = s.kn := rfl
@[simp] theorem reply_kphi : (reply a w s).kphi = s.kphi := rfl
@[simp] theorem reply_kd : (reply a w s).kd = s.kd := rfl
@[simp] theorem reply_keyValid : (reply a w s).keyValid = s.keyValid := rfl
@[simp] theorem reply_busy : (reply a w s).busy = s.busy := rfl
@[simp] theorem reply_done : (reply a w s).done = s.done := rfl
@[simp] theorem reply_err : (reply a w s).err = s.err := rfl
@[simp] theorem reply_oracle : (reply a w s).oracle = s.oracle := rfl
@[simp] theorem reply_wrap : (reply a w s).wrap = s.wrap := rfl
@[simp] theorem reply_curCmd : (reply a w s).curCmd = s.curCmd := rfl
@[simp] theorem reply_rng : (reply a w s).rng = s.rng := rfl
@[simp] theorem reply_host : (reply a w s).host = { s.host with replies := { addr := a, data := w } :: s.host.replies } := rfl

end

/-! `withPending`: replaces the pending events. -/

section
variable (es : List Event)

@[simp] theorem withPending_build : (withPending s es).build = s.build := rfl
@[simp] theorem withPending_opa : (withPending s es).opa = s.opa := rfl
@[simp] theorem withPending_opb : (withPending s es).opb = s.opb := rfl
@[simp] theorem withPending_opm : (withPending s es).opm = s.opm := rfl
@[simp] theorem withPending_res : (withPending s es).res = s.res := rfl
@[simp] theorem withPending_msg : (withPending s es).msg = s.msg := rfl
@[simp] theorem withPending_msgLen : (withPending s es).msgLen = s.msgLen := rfl
@[simp] theorem withPending_blk : (withPending s es).blk = s.blk := rfl
@[simp] theorem withPending_ct : (withPending s es).ct = s.ct := rfl
@[simp] theorem withPending_ctLen : (withPending s es).ctLen = s.ctLen := rfl
@[simp] theorem withPending_kp : (withPending s es).kp = s.kp := rfl
@[simp] theorem withPending_kq : (withPending s es).kq = s.kq := rfl
@[simp] theorem withPending_ke : (withPending s es).ke = s.ke := rfl
@[simp] theorem withPending_kn : (withPending s es).kn = s.kn := rfl
@[simp] theorem withPending_kphi : (withPending s es).kphi = s.kphi := rfl
@[simp] theorem withPending_kd : (withPending s es).kd = s.kd := rfl
@[simp] theorem withPending_keyValid : (withPending s es).keyValid = s.keyValid := rfl
@[simp] theorem withPending_busy : (withPending s es).busy = s.busy := rfl
@[simp] theorem withPending_done : (withPending s es).done = s.done := rfl
@[simp] theorem withPending_err : (withPending s es).err = s.err := rfl
@[simp] theorem withPending_oracle : (withPending s es).oracle = s.oracle := rfl
@[simp] theorem withPending_wrap : (withPending s es).wrap = s.wrap := rfl
@[simp] theorem withPending_curCmd : (withPending s es).curCmd = s.curCmd := rfl
@[simp] theorem withPending_rng : (withPending s es).rng = s.rng := rfl
@[simp] theorem withPending_host : (withPending s es).host = { s.host with pending := es } := rfl

end

/-! `resetBlock`: restores the reset values. -/

@[simp] theorem resetBlock_build : (resetBlock s).build = s.build := rfl
@[simp] theorem resetBlock_opa : (resetBlock s).opa = toBE s.B 0 := rfl
@[simp] theorem resetBlock_opb : (resetBlock s).opb = toBE s.B 0 := rfl
@[simp] theorem resetBlock_opm : (resetBlock s).opm = toBE s.B 0 := rfl
@[simp] theorem resetBlock_res : (resetBlock s).res = toBE s.B 0 := rfl
@[simp] theorem resetBlock_msg : (resetBlock s).msg = toBE s.B 0 := rfl
@[simp] theorem resetBlock_msgLen : (resetBlock s).msgLen = 0#32 := rfl
@[simp] theorem resetBlock_blk : (resetBlock s).blk = toBE s.B 0 := rfl
@[simp] theorem resetBlock_ct : (resetBlock s).ct = toBE s.B 0 := rfl
@[simp] theorem resetBlock_ctLen : (resetBlock s).ctLen = 0#32 := rfl
@[simp] theorem resetBlock_kp : (resetBlock s).kp = toBE s.B s.build.keyP0 := rfl
@[simp] theorem resetBlock_kq : (resetBlock s).kq = toBE s.B s.build.keyQ0 := rfl
@[simp] theorem resetBlock_ke : (resetBlock s).ke = toBE s.B s.build.keyE0 := rfl
@[simp] theorem resetBlock_kn : (resetBlock s).kn = toBE s.B 0 := rfl
@[simp] theorem resetBlock_kphi : (resetBlock s).kphi = 0 := rfl
@[simp] theorem resetBlock_kd : (resetBlock s).kd = 0 := rfl
@[simp] theorem resetBlock_keyValid : (resetBlock s).keyValid = false := rfl
@[simp] theorem resetBlock_busy : (resetBlock s).busy = false := rfl
@[simp] theorem resetBlock_done : (resetBlock s).done = false := rfl
@[simp] theorem resetBlock_err : (resetBlock s).err = .none := rfl
@[simp] theorem resetBlock_oracle : (resetBlock s).oracle = false := rfl
@[simp] theorem resetBlock_wrap : (resetBlock s).wrap = false := rfl
@[simp] theorem resetBlock_curCmd : (resetBlock s).curCmd = 0#32 := rfl
@[simp] theorem resetBlock_rng : (resetBlock s).rng = s.rng := rfl
@[simp] theorem resetBlock_host : (resetBlock s).host = s.host := rfl

@[simp] theorem takeError_eq (c : Err) : takeError c s = finish c s := rfl

/-! `setBuf`: replaces one register. -/

section
variable (x : BigReg) (b : Buf)

@[simp] theorem setBuf_build : (s.setBuf x b).build = s.build := by cases x <;> rfl
@[simp] theorem setBuf_opa : (s.setBuf x b).opa = if x = .opa then b else s.opa := by cases x <;> rfl
@[simp] theorem setBuf_opb : (s.setBuf x b).opb = if x = .opb then b else s.opb := by cases x <;> rfl
@[simp] theorem setBuf_opm : (s.setBuf x b).opm = if x = .opm then b else s.opm := by cases x <;> rfl
@[simp] theorem setBuf_res : (s.setBuf x b).res = if x = .res then b else s.res := by cases x <;> rfl
@[simp] theorem setBuf_msg : (s.setBuf x b).msg = if x = .msg then b else s.msg := by cases x <;> rfl
@[simp] theorem setBuf_msgLen : (s.setBuf x b).msgLen = s.msgLen := by cases x <;> rfl
@[simp] theorem setBuf_blk : (s.setBuf x b).blk = if x = .blk then b else s.blk := by cases x <;> rfl
@[simp] theorem setBuf_ct : (s.setBuf x b).ct = if x = .ct then b else s.ct := by cases x <;> rfl
@[simp] theorem setBuf_ctLen : (s.setBuf x b).ctLen = s.ctLen := by cases x <;> rfl
@[simp] theorem setBuf_kp : (s.setBuf x b).kp = if x = .kp then b else s.kp := by cases x <;> rfl
@[simp] theorem setBuf_kq : (s.setBuf x b).kq = if x = .kq then b else s.kq := by cases x <;> rfl
@[simp] theorem setBuf_ke : (s.setBuf x b).ke = if x = .ke then b else s.ke := by cases x <;> rfl
@[simp] theorem setBuf_kn : (s.setBuf x b).kn = if x = .kn then b else s.kn := by cases x <;> rfl
@[simp] theorem setBuf_kphi : (s.setBuf x b).kphi = s.kphi := by cases x <;> rfl
@[simp] theorem setBuf_kd : (s.setBuf x b).kd = s.kd := by cases x <;> rfl
@[simp] theorem setBuf_keyValid : (s.setBuf x b).keyValid = s.keyValid := by cases x <;> rfl
@[simp] theorem setBuf_busy : (s.setBuf x b).busy = s.busy := by cases x <;> rfl
@[simp] theorem setBuf_done : (s.setBuf x b).done = s.done := by cases x <;> rfl
@[simp] theorem setBuf_err : (s.setBuf x b).err = s.err := by cases x <;> rfl
@[simp] theorem setBuf_oracle : (s.setBuf x b).oracle = s.oracle := by cases x <;> rfl
@[simp] theorem setBuf_wrap : (s.setBuf x b).wrap = s.wrap := by cases x <;> rfl
@[simp] theorem setBuf_curCmd : (s.setBuf x b).curCmd = s.curCmd := by cases x <;> rfl
@[simp] theorem setBuf_rng : (s.setBuf x b).rng = s.rng := by cases x <;> rfl
@[simp] theorem setBuf_host : (s.setBuf x b).host = s.host := by cases x <;> rfl

end

/-! No update changes B. -/

@[simp] theorem setBuf_B (x : BigReg) (b : Buf) : (s.setBuf x b).B = s.B := by cases x <;> rfl
@[simp] theorem finish_B (c : Err) : (finish c s).B = s.B := rfl
@[simp] theorem issue_B (v : Word) : (issue v s).B = s.B := rfl
@[simp] theorem advanceRng_B (k : Nat) : (advanceRng s k).B = s.B := rfl
@[simp] theorem reply_B (a : Nat) (w : Word) : (reply a w s).B = s.B := rfl
@[simp] theorem withPending_B (es : List Event) : (withPending s es).B = s.B := rfl
@[simp] theorem resetBlock_B : (resetBlock s).B = s.B := rfl

theorem buf_setBuf (x y : BigReg) (b : Buf) : (s.setBuf x b).buf y = if x = y then b else s.buf y := by
  cases x <;> cases y <;> rfl

@[simp] theorem buf_setBuf_self (x : BigReg) (b : Buf) : (s.setBuf x b).buf x = b := by
  cases x <;> rfl

theorem buf_setBuf_of_ne {x y : BigReg} (h : x ≠ y) (b : Buf) : (s.setBuf x b).buf y = s.buf y := by
  rw [buf_setBuf, if_neg h]

theorem setBuf_buf (x : BigReg) : s.setBuf x (s.buf x) = s := by
  cases x <;> rfl

theorem setBuf_setBuf (x : BigReg) (b c : Buf) : (s.setBuf x b).setBuf x c = s.setBuf x c := by
  cases x <;> rfl

@[simp] theorem buf_finish (c : Err) (x : BigReg) : (finish c s).buf x = s.buf x := by cases x <;> rfl
@[simp] theorem val_finish (c : Err) (x : BigReg) : (finish c s).val x = s.val x := by cases x <;> rfl
@[simp] theorem buf_issue (v : Word) (x : BigReg) : (issue v s).buf x = s.buf x := by cases x <;> rfl
@[simp] theorem val_issue (v : Word) (x : BigReg) : (issue v s).val x = s.val x := by cases x <;> rfl
@[simp] theorem buf_advanceRng (k : Nat) (x : BigReg) : (advanceRng s k).buf x = s.buf x := by cases x <;> rfl
@[simp] theorem val_advanceRng (k : Nat) (x : BigReg) : (advanceRng s k).val x = s.val x := by cases x <;> rfl
@[simp] theorem buf_reply (a : Nat) (w : Word) (x : BigReg) : (reply a w s).buf x = s.buf x := by cases x <;> rfl
@[simp] theorem val_reply (a : Nat) (w : Word) (x : BigReg) : (reply a w s).val x = s.val x := by cases x <;> rfl
@[simp] theorem buf_withPending (es : List Event) (x : BigReg) : (withPending s es).buf x = s.buf x := by cases x <;> rfl
@[simp] theorem val_withPending (es : List Event) (x : BigReg) : (withPending s es).val x = s.val x := by cases x <;> rfl

end

end Sys2Proof.Machine
end

