-- ==== Sys2Proof/Laws/Ops.lean ====
section
/-! SUPPORT. The shared operations: what a commit gives, and that each operation keeps the well-formedness of the
state. -/

namespace Sys2Proof.Machine

/-- Everything a commit can do (spec R112): the staged writes with ERR 0, or the old state with an error. -/
theorem commit_cases (r : Except Err State) (s : State) :
    (∃ t, r = .ok t ∧ commit r s = finish .none t) ∨ (∃ c, r = .error c ∧ commit r s = finish c s) := by
  cases r with
  | ok t => exact .inl ⟨t, rfl, rfl⟩
  | error c => exact .inr ⟨c, rfl, rfl⟩

/-- A commit always ends with BUSY = 0 and DONE = 1 (R112). -/
theorem commit_idle (r : Except Err State) (s : State) : (commit r s).busy = false ∧ (commit r s).done = true := by
  cases r <;> exact ⟨rfl, rfl⟩

theorem length_buf {s : State} (h : s.WF) (x : BigReg) : (s.buf x).length = s.B := by
  cases x
  exacts [h.opa, h.opb, h.opm, h.res, h.msg, h.blk, h.ct, h.kp, h.kq, h.ke, h.kn]

/-- Every register of a well-formed state holds an integer below 256^B (R31). -/
theorem val_lt {s : State} (h : s.WF) (x : BigReg) : s.val x < 256 ^ s.B := by
  have := beNat_lt (s.buf x)
  rwa [length_buf h x] at this

theorem build_facts {b : Build} (h : b.wf = true) :
    b.blockBytes % 4 = 0 ∧ 4 ≤ b.blockBytes ∧ b.blockBytes ≤ 4096 ∧ b.keyP0 < 256 ^ b.blockBytes ∧
      b.keyQ0 < 256 ^ b.blockBytes ∧ b.keyE0 < 256 ^ b.blockBytes := by
  simp only [Build.wf, Bool.and_eq_true, beq_iff_eq, decide_eq_true_eq] at h
  tauto

@[simp] theorem val_setVal_self (s : State) (x : BigReg) (v : Nat) :
    (s.setVal x v).val x = v % 256 ^ s.B := by
  simp [State.val, State.setVal, beNat_toBE]

theorem State.WF.finish {s : State} (h : s.WF) (c : Err) : (finish c s).WF where
  build := h.build
  opa := h.opa
  opb := h.opb
  opm := h.opm
  res := h.res
  msg := h.msg
  blk := h.blk
  ct := h.ct
  kp := h.kp
  kq := h.kq
  ke := h.ke
  kn := h.kn
  kphi := h.kphi
  kd := h.kd
  notBusyAndDone := by simp
  noErrWhileBusy := by simp

theorem State.WF.issue {s : State} (h : s.WF) (v : Word) : (issue v s).WF where
  build := h.build
  opa := h.opa
  opb := h.opb
  opm := h.opm
  res := h.res
  msg := h.msg
  blk := h.blk
  ct := h.ct
  kp := h.kp
  kq := h.kq
  ke := h.ke
  kn := h.kn
  kphi := h.kphi
  kd := h.kd
  notBusyAndDone := by simp
  noErrWhileBusy := by simp

/-- The fields that well-formedness does not speak of may change freely. -/
theorem State.WF.others {s : State} (h : s.WF) (ml cl cc : Word) (kv o w : Bool) (r : Rng) (e : HostSide) :
    State.WF { s with msgLen := ml, ctLen := cl, curCmd := cc, keyValid := kv, oracle := o, wrap := w, rng := r, host := e } where
  build := h.build
  opa := h.opa
  opb := h.opb
  opm := h.opm
  res := h.res
  msg := h.msg
  blk := h.blk
  ct := h.ct
  kp := h.kp
  kq := h.kq
  ke := h.ke
  kn := h.kn
  kphi := h.kphi
  kd := h.kd
  notBusyAndDone := h.notBusyAndDone
  noErrWhileBusy := h.noErrWhileBusy

theorem State.WF.withPending {s : State} (h : s.WF) (es : List Event) : (withPending s es).WF :=
  h.others s.msgLen s.ctLen s.curCmd s.keyValid s.oracle s.wrap s.rng _

theorem State.WF.reply {s : State} (h : s.WF) (a : Nat) (w : Word) : (reply a w s).WF :=
  h.others s.msgLen s.ctLen s.curCmd s.keyValid s.oracle s.wrap s.rng _

theorem State.WF.advanceRng {s : State} (h : s.WF) (k : Nat) : (advanceRng s k).WF :=
  h.others s.msgLen s.ctLen s.curCmd s.keyValid s.oracle s.wrap _ s.host

theorem State.WF.setBuf {s : State} (h : s.WF) (x : BigReg) {b : Buf} (hb : b.length = s.B) : (s.setBuf x b).WF := by
  cases x with
  | opa => exact { h with opa := hb }
  | opb => exact { h with opb := hb }
  | opm => exact { h with opm := hb }
  | res => exact { h with res := hb }
  | msg => exact { h with msg := hb }
  | blk => exact { h with blk := hb }
  | ct => exact { h with ct := hb }
  | kp => exact { h with kp := hb }
  | kq => exact { h with kq := hb }
  | ke => exact { h with ke := hb }
  | kn => exact { h with kn := hb }

theorem State.WF.setVal {s : State} (h : s.WF) (x : BigReg) (v : Nat) : (s.setVal x v).WF :=
  h.setBuf x (length_toBE _ _)

/-- A legal configuration resets to a well-formed state, whatever stood before (R240). -/
theorem State.WF.resetBlock {s : State} (h : s.build.wf = true) : (resetBlock s).WF where
  build := h
  opa := length_toBE _ _
  opb := length_toBE _ _
  opm := length_toBE _ _
  res := length_toBE _ _
  msg := length_toBE _ _
  blk := length_toBE _ _
  ct := length_toBE _ _
  kp := length_toBE _ _
  kq := length_toBE _ _
  ke := length_toBE _ _
  kn := length_toBE _ _
  kphi := Nat.pos_of_ne_zero (pow_ne_zero _ (by decide))
  kd := Nat.pos_of_ne_zero (pow_ne_zero _ (by decide))
  notBusyAndDone := by simp
  noErrWhileBusy := by simp

end Sys2Proof.Machine
end

