-- ==== Sys2Proof/Laws/Bus.lean ====
section
/-! SUPPORT. The register window (spec 20_memory.md): where an offset leads, and everything a host access can do. -/

namespace Sys2Proof.Machine

theorem regionOf_regionBase (x : BigReg) {i : Nat} (h : i < 0x1000) : regionOf (regionBase x + i) = some x := by
  have hdiv : (regionBase x + i) / 0x1000 = regionBase x / 0x1000 := by
    cases x <;> simp only [regionBase] <;> omega
  unfold regionOf
  rw [hdiv]
  cases x <;> rfl

theorem regionBase_ge (x : BigReg) : 0x1000 ≤ regionBase x := by
  cases x <;> decide

/-- Offsets of the map (R71) that lie in no region. -/
theorem regionOf_none {off : Nat} (h : off < 0x1000 ∨ 0xC000 ≤ off) : regionOf off = none := by
  have hq : off / 0x1000 = 0 ∨ 12 ≤ off / 0x1000 := by omega
  unfold regionOf
  split <;> first | rfl | omega

theorem memRead_region (s : State) (x : BigReg) {i : Nat} (h : i < 0x1000) :
    memRead s (regionBase x + i) = readRegion s x i := by
  have := regionBase_ge x
  unfold memRead
  rw [if_neg (by omega), if_neg (by omega), if_neg (by omega), if_neg (by omega), if_neg (by omega),
    regionOf_regionBase x h]
  simp

theorem memWrite_region {s : State} (hb : s.busy = false) (x : BigReg) {i : Nat} (h : i < 0x1000) (v : Word) :
    memWrite s (regionBase x + i) v = writeRegion s x i v := by
  have := regionBase_ge x
  unfold memWrite
  rw [if_neg (by simp [hb]), if_neg (by omega), if_neg (by omega), if_neg (by omega), regionOf_regionBase x h]
  simp

theorem memWrite_busy {s : State} (hb : s.busy = true) (off : Nat) (v : Word) : memWrite s off v = s := by
  simp [memWrite, hb]

/-- Everything a write can do (R81): nothing; issue a command; set a length; store a word in a register. -/
theorem memWrite_cases (s : State) (off : Nat) (v : Word) :
    memWrite s off v = s ∨
      (s.busy = false ∧ off = 0x0000 ∧ memWrite s off v = issue v s) ∨
      (s.busy = false ∧ off = 0x0008 ∧ memWrite s off v = { s with msgLen := v }) ∨
      (s.busy = false ∧ off = 0x000C ∧ memWrite s off v = { s with ctLen := v }) ∨
      (s.busy = false ∧ ∃ x, regionOf off = some x ∧ hostWritable s x = true ∧ off - regionBase x < s.B ∧
        memWrite s off v = s.setBuf x (putWord (s.buf x) (off - regionBase x) v)) := by
  cases hb : s.busy with
  | true => exact .inl (memWrite_busy hb off v)
  | false =>
    by_cases h0 : off = 0x0000
    · exact .inr (.inl ⟨rfl, h0, by simp [memWrite, hb, h0]⟩)
    by_cases h8 : off = 0x0008
    · exact .inr (.inr (.inl ⟨rfl, h8, by simp [memWrite, hb, h8]⟩))
    by_cases hc : off = 0x000C
    · exact .inr (.inr (.inr (.inl ⟨rfl, hc, by simp [memWrite, hb, hc]⟩)))
    cases hr : regionOf off with
    | none => exact .inl (by simp [memWrite, hb, h0, h8, hc, hr])
    | some x =>
      by_cases hw : (hostWritable s x && decide (off - regionBase x < s.B)) = true
      · have hw' := hw
        simp only [Bool.and_eq_true, decide_eq_true_eq] at hw'
        exact .inr (.inr (.inr (.inr ⟨rfl, x, rfl, hw'.1, hw'.2,
          by simp only [memWrite, hb, h0, h8, hc, hr, writeRegion, hw]; simp⟩)))
      · exact .inl (by simp only [memWrite, hb, h0, h8, hc, hr, writeRegion, hw]; simp)

/-- A write never touches the environment, the build, the results of commands or the flags of a key. -/
theorem memWrite_frame (s : State) (off : Nat) (v : Word) :
    (memWrite s off v).build = s.build ∧ (memWrite s off v).host = s.host ∧ (memWrite s off v).rng = s.rng ∧
      (memWrite s off v).res = s.res ∧ (memWrite s off v).kn = s.kn ∧ (memWrite s off v).kphi = s.kphi ∧
      (memWrite s off v).kd = s.kd ∧ (memWrite s off v).keyValid = s.keyValid ∧
      (memWrite s off v).oracle = s.oracle ∧ (memWrite s off v).wrap = s.wrap := by
  rcases memWrite_cases s off v with h | ⟨-, -, h⟩ | ⟨-, -, h⟩ | ⟨-, -, h⟩ | ⟨-, x, -, hw, -, h⟩ <;> rw [h]
  · simp
  · simp
  · simp
  · simp
  · cases x <;> simp_all [hostWritable]

theorem State.WF.memWrite {s : State} (h : s.WF) (off : Nat) (v : Word) : (memWrite s off v).WF := by
  rcases memWrite_cases s off v with e | ⟨-, -, e⟩ | ⟨-, -, e⟩ | ⟨-, -, e⟩ | ⟨-, x, -, -, -, e⟩ <;> rw [e]
  · exact h
  · exact h.issue v
  · exact { h with }
  · exact { h with }
  · exact h.setBuf x (by rw [length_putWord, length_buf h x])

/-- Everything an access can do: it is not the block's; it is refused (R72); it is read; it is written. -/
theorem hostAccess_cases (a : Access) (s : State) :
    (a.routed s.build = false ∧ hostAccess a s = .next s) ∨
      (a.routed s.build = true ∧ a.wf s.build = false ∧ hostAccess a s = .refused .accessOutsideContract) ∨
      (a.routed s.build = true ∧ a.wf s.build = true ∧ a.op = .read ∧
        hostAccess a s = .next (reply a.addr (memRead s (a.offset s.build)) s)) ∨
      (a.routed s.build = true ∧ a.wf s.build = true ∧ ∃ v, a.op = .write v ∧
        hostAccess a s = .next (memWrite s (a.offset s.build) v)) := by
  cases hr : a.routed s.build with
  | false => exact .inl ⟨rfl, by simp [hostAccess, hr]⟩
  | true =>
    cases hw : a.wf s.build with
    | false => exact .inr (.inl ⟨rfl, rfl, by simp [hostAccess, hr, hw]⟩)
    | true =>
      cases ho : a.op with
      | read => exact .inr (.inr (.inl ⟨rfl, rfl, rfl, by simp [hostAccess, hr, hw, ho]⟩))
      | write v => exact .inr (.inr (.inr ⟨rfl, rfl, v, rfl, by simp [hostAccess, hr, hw, ho]⟩))

end Sys2Proof.Machine
end

