-- ==== Sys2Proof/Laws/ModArith.lean ====
section
/-! SUPPORT. What ModExp and ModInv compute (spec 40_modarith.md R120, R121). -/

namespace Sys2Proof.Machine

theorem modExpLoop_eq (k acc base x m : Nat) (hacc : acc % m = acc) (hx : x < 2 ^ k) :
    modExpLoop k acc base x m = acc * base ^ x % m := by
  induction k generalizing acc base x with
  | zero =>
    obtain rfl : x = 0 := by simpa using hx
    simp [modExpLoop, hacc]
  | succ k ih =>
    by_cases h0 : x = 0
    · simp [modExpLoop, h0, hacc]
    · have hhalf : x / 2 < 2 ^ k := by rw [pow_succ] at hx; omega
      have hsq : ∀ c, (c * (base * base % m) ^ (x / 2)) % m = c * base ^ (2 * (x / 2)) % m := by
        intro c
        rw [pow_mul, pow_two, Nat.mul_mod, ← Nat.pow_mod, ← Nat.mul_mod]
      simp only [modExpLoop, if_neg h0]
      by_cases hodd : x % 2 = 1
      · rw [if_pos hodd, ih _ _ _ (by simp) hhalf, hsq, Nat.mul_mod, Nat.mod_mod, ← Nat.mul_mod,
          Nat.mul_assoc, ← pow_succ', show 2 * (x / 2) + 1 = x by omega]
      · rw [if_neg hodd, ih _ _ _ hacc hhalf, hsq, show 2 * (x / 2) = x by omega]

/-- "The result equals b^x mod m for every b >= 0, x >= 0 and m >= 1, with 0^0 = 1" (R120). -/
theorem modExp_eq (b x m : Nat) : modExp b x m = b ^ x % m := by
  rw [modExp, modExpLoop_eq _ _ _ _ _ (by simp) Nat.lt_log2_self, Nat.mul_mod, Nat.mod_mod,
    ← Nat.pow_mod, ← Nat.mul_mod, one_mul]

/-- "The result is always in [0, m)" (R120). -/
theorem modExp_lt {m : Nat} (b x : Nat) (h : 0 < m) : modExp b x m < m := by
  rw [modExp_eq]; exact Nat.mod_lt _ h

/-- The Euclidean loop keeps r = s*a (mod m) for both pairs, and ends with the gcd. -/
theorem modInvLoop_spec (k r0 r1 : Nat) (s0 s1 a m : Int) (hk : r1 ≤ k)
    (h0 : (r0 : Int) ≡ s0 * a [ZMOD m]) (h1 : (r1 : Int) ≡ s1 * a [ZMOD m]) :
    (modInvLoop k r0 r1 s0 s1).1 = Nat.gcd r0 r1 ∧
      ((modInvLoop k r0 r1 s0 s1).1 : Int) ≡ (modInvLoop k r0 r1 s0 s1).2 * a [ZMOD m] := by
  induction k generalizing r0 r1 s0 s1 with
  | zero =>
    obtain rfl : r1 = 0 := by omega
    exact ⟨by simp [modInvLoop], h0⟩
  | succ k ih =>
    by_cases hz : r1 = 0
    · simp only [modInvLoop, if_pos hz]; exact ⟨by simp [hz], h0⟩
    · have hrem : r0 - r0 / r1 * r1 = r0 % r1 := by
        have := Nat.div_add_mod r0 r1
        rw [Nat.mul_comm] at this; omega
      have hlt : r0 % r1 < r1 := Nat.mod_lt _ (Nat.pos_of_ne_zero hz)
      have hcong : ((r0 % r1 : Nat) : Int) ≡ (s0 - (r0 / r1 : Nat) * s1) * a [ZMOD m] := by
        have he : ((r0 % r1 : Nat) : Int) = r0 - (r0 / r1 : Nat) * r1 := by
          push_cast
          rw [Int.emod_def]
          ring
        rw [he, sub_mul, mul_assoc]
        exact h0.sub (h1.mul_left _)
      simp only [modInvLoop, if_neg hz, hrem]
      have hstep := ih r1 (r0 % r1) s1 (s0 - (r0 / r1 : Nat) * s1) (by omega) h1 hcong
      rw [Nat.gcd_comm r0 r1, Nat.gcd_rec r1 r0, Nat.gcd_comm (r0 % r1) r1]
      exact hstep

theorem modInvLoop_start (a m : Nat) :
    (modInvLoop (m + 1) (a % m) m 1 0).1 = Nat.gcd a m ∧
      ((modInvLoop (m + 1) (a % m) m 1 0).1 : Int) ≡ (modInvLoop (m + 1) (a % m) m 1 0).2 * a [ZMOD m] := by
  have h := modInvLoop_spec (m + 1) (a % m) m 1 0 (a : Int) (m : Int) (by omega)
    (by rw [one_mul]; push_cast; exact Int.mod_modEq _ _)
    (by rw [zero_mul]; exact (Int.modEq_zero_iff_dvd).2 (dvd_refl _))
  refine ⟨?_, h.2⟩
  rw [h.1, Nat.gcd_comm (a % m) m, Nat.gcd_comm a m, Nat.gcd_rec m a, Nat.gcd_comm]

/-- "When gcd(a, m) ≠ 1, the result is NOINV" (R121). -/
theorem modInv_eq_none (a m : Nat) : modInv a m = none ↔ Nat.gcd a m ≠ 1 := by
  have h := (modInvLoop_start a m).1
  unfold modInv
  rcases hl : modInvLoop (m + 1) (a % m) m 1 0 with ⟨g, c⟩
  rw [hl] at h
  simp only at h
  by_cases hg : g = 1
  · simp [hg, ← h]
  · simp [hg, ← h]

/-- "When gcd(a, m) = 1, the result is the unique d in [0, m) with a*d ≡ 1 (mod m)" (R121): what d satisfies. -/
theorem modInv_some {a m d : Nat} (hm : 0 < m) (h : modInv a m = some d) :
    Nat.gcd a m = 1 ∧ d < m ∧ a * d % m = 1 % m := by
  have hs := modInvLoop_start a m
  unfold modInv at h
  rcases hl : modInvLoop (m + 1) (a % m) m 1 0 with ⟨g, c⟩
  rw [hl] at hs h
  simp only at hs h
  by_cases hg : g = 1
  · rw [if_pos hg] at h
    have hd : (c % (m : Int)).toNat = d := by simpa using h
    have hm' : (m : Int) ≠ 0 := by exact_mod_cast hm.ne'
    have hnn := Int.emod_nonneg c hm'
    have hlt : c % (m : Int) < m := Int.emod_lt_of_pos _ (by exact_mod_cast hm)
    have hdz : (d : Int) = c % m := by omega
    refine ⟨hs.1 ▸ hg, by omega, ?_⟩
    have hc : ((a * d : Nat) : Int) ≡ ((1 : Nat) : Int) [ZMOD m] := by
      push_cast
      rw [hdz, mul_comm]
      calc c % m * a ≡ c * a [ZMOD m] := (Int.mod_modEq c m).mul_right _
        _ ≡ 1 [ZMOD m] := by simpa [hg] using hs.2.symm
    exact (Int.natCast_modEq_iff).1 hc
  · rw [if_neg hg] at h; exact absurd h (by simp)

/-- The inverse is unique below the modulus (R121). -/
theorem inverse_unique {a m d e : Nat} (hg : Nat.gcd a m = 1) (hd : d < m) (he : e < m)
    (h : a * d % m = a * e % m) : d = e := by
  have : d ≡ e [MOD m] := Nat.ModEq.cancel_left_of_coprime (by rwa [Nat.gcd_comm]) h
  exact Nat.ModEq.eq_of_lt_of_lt this hd he

end Sys2Proof.Machine
end

