-- ==== Sys2Proof/Laws/KeyMaterial.lean ====
section
/-! SUPPORT. What KeyDerive answers (spec 41_keymaterial.md R140). -/

namespace Sys2Proof.Machine

/-- A key derived: its checks passed, and its values are those of R140 and R143. -/
theorem keyDerive_ok {size p q e : Nat} {k : KeyTriple} (h : keyDerive size p q e = .ok k) :
    2 ≤ p ∧ 2 ≤ q ∧ p * q < 256 ^ size ∧ k.n = p * q ∧ k.phi = (p - 1) * (q - 1) ∧
      Nat.gcd e k.phi = 1 ∧ k.d < k.phi ∧ k.d * e % k.phi = 1 % k.phi := by
  unfold keyDerive at h
  split at h
  · cases h
  · rename_i hpq
    split at h
    · cases h
    · rename_i hn
      split at h
      · cases h
      · rename_i d hd
        cases h
        have hphi : 0 < (p - 1) * (q - 1) := Nat.mul_pos (by omega) (by omega)
        obtain ⟨hg, hlt, hinv⟩ := modInv_some hphi hd
        exact ⟨by omega, by omega, by omega, rfl, rfl, hg, hlt, by rw [Nat.mul_comm]; exact hinv⟩

/-- A key not derived: OPERAND for the two range checks, DOMAIN for a common factor of e and phi. -/
theorem keyDerive_error {size p q e : Nat} {c : Err} (h : keyDerive size p q e = .error c) :
    (c = .operand ∧ (p < 2 ∨ q < 2 ∨ 256 ^ size ≤ p * q)) ∨
      (c = .domain ∧ 2 ≤ p ∧ 2 ≤ q ∧ p * q < 256 ^ size ∧ Nat.gcd e ((p - 1) * (q - 1)) ≠ 1) := by
  unfold keyDerive at h
  split at h
  · cases h; left; refine ⟨rfl, ?_⟩; omega
  · split at h
    · cases h; left; refine ⟨rfl, ?_⟩; omega
    · split at h
      · rename_i hd
        cases h
        right
        exact ⟨rfl, by omega, by omega, by omega, (modInv_eq_none _ _).1 hd⟩
      · cases h

end Sys2Proof.Machine
end

