-- ==== Sys2Proof/Laws/Padding.lean ====
section
/-! SUPPORT. The padding codec (spec 42_padding.md R150, R152): lengths, bytes, the separator, the round trip. -/

namespace Sys2Proof.Machine

theorem padByte_ne_zero (r : Byte) : padByte r ≠ 0x00#8 := by
  unfold padByte
  split
  · decide
  · assumption

@[simp] theorem length_draws (s : State) (k : Nat) : (draws s k).length = k := by
  simp [draws]

/-- With B - 3 - L draws the padded block has B bytes (R150). -/
theorem length_padEncode {msg : Buf} {len : Nat} {r : List Byte} (h : len ≤ msg.length) :
    (padEncode msg len r).length = r.length + 3 + len := by
  simp [padEncode, Nat.min_eq_left h]
  omega

/-- The shape of the block behind the marker bytes: pad bytes, separator, message. -/
theorem padEncode_eq (msg : Buf) (len : Nat) (r : List Byte) :
    padEncode msg len r = 0x00#8 :: 0x02#8 :: (r.map padByte ++ 0x00#8 :: msg.take len) := by
  simp [padEncode]

theorem byteAt_cons_zero (b : Byte) (x : Buf) : byteAt (b :: x) 0 = b := rfl

theorem byteAt_cons_succ (b : Byte) (x : Buf) (i : Nat) : byteAt (b :: x) (i + 1) = byteAt x i := rfl

theorem byteAt_append_left {x y : Buf} {i : Nat} (h : i < x.length) : byteAt (x ++ y) i = byteAt x i := by
  simp [byteAt, List.getD_eq_getElem?_getD, List.getElem?_append_left h]

theorem byteAt_append_right {x y : Buf} {i : Nat} (h : x.length ≤ i) :
    byteAt (x ++ y) i = byteAt y (i - x.length) := by
  simp [byteAt, List.getD_eq_getElem?_getD, List.getElem?_append_right h]

theorem byteAt_take {x : Buf} {n i : Nat} (h : i < n) : byteAt (x.take n) i = byteAt x i := by
  simp [byteAt, List.getD_eq_getElem?_getD, h]

theorem byteAt_drop (x : Buf) (n i : Nat) : byteAt (x.drop n) i = byteAt x (n + i) := by
  simp [byteAt, List.getD_eq_getElem?_getD, List.getElem?_drop]

theorem byteAt_map_padByte {r : List Byte} {i : Nat} (h : i < r.length) :
    byteAt (r.map padByte) i = padByte (byteAt r i) := by
  simp [byteAt, List.getD_eq_getElem?_getD, h]

theorem byteAt_draws (s : State) {k i : Nat} (h : i < k) :
    byteAt (draws s k) i = s.rng.byteAt (s.rng.pos + i) := by
  simp [byteAt, draws, List.getD_eq_getElem?_getD, h]

theorem byteAt_replicate_zero (n i : Nat) : byteAt (List.replicate n 0x00#8) i = 0x00#8 := by
  by_cases h : i < n
  · simp [byteAt, List.getD_eq_getElem?_getD, h]
  · simp [byteAt, List.getD_eq_getElem?_getD, h]

theorem ext_byteAt {x y : Buf} (hl : x.length = y.length) (h : ∀ i < x.length, byteAt x i = byteAt y i) : x = y := by
  apply List.ext_getElem hl
  intro i h1 h2
  have := h i h1
  simpa [byteAt, List.getD_eq_getElem?_getD, h1, h2] using this

/-- No separator: every byte is non-zero. -/
theorem afterSeparator_eq_none (x : List Byte) :
    afterSeparator x = none ↔ ∀ i < x.length, byteAt x i ≠ 0x00#8 := by
  induction x with
  | nil => simp [afterSeparator]
  | cons b bs ih =>
    by_cases hb : b = 0x00#8
    · simp only [afterSeparator, if_pos hb, List.length_cons]
      constructor
      · intro h; cases h
      · intro h; exact absurd hb (h 0 (by omega))
    · simp only [afterSeparator, if_neg hb, ih, List.length_cons]
      constructor
      · intro h i hi
        cases i with
        | zero => exact hb
        | succ i => exact h i (by omega)
      · intro h i hi
        exact h (i + 1) (by omega)

/-- A separator at the least index `j` with a zero byte: the message is what stands after it. -/
theorem afterSeparator_eq_some (x : List Byte) (j : Nat) (hj : j < x.length) (hz : byteAt x j = 0x00#8)
    (hn : ∀ i < j, byteAt x i ≠ 0x00#8) : afterSeparator x = some (x.drop (j + 1)) := by
  induction x generalizing j with
  | nil => simp at hj
  | cons b bs ih =>
    cases j with
    | zero =>
      have hb : b = 0x00#8 := hz
      simp [afterSeparator, hb]
    | succ j =>
      have hb : b ≠ 0x00#8 := hn 0 (by omega)
      simp only [afterSeparator, if_neg hb, List.drop_succ_cons]
      exact ih j (by simpa using hj) hz (fun i hi => hn (i + 1) (by omega))

/-- What a separator found says: its index is the least one with a zero byte. -/
theorem afterSeparator_some_index (x m : List Byte) (h : afterSeparator x = some m) :
    ∃ j, j < x.length ∧ byteAt x j = 0x00#8 ∧ (∀ i < j, byteAt x i ≠ 0x00#8) ∧ m = x.drop (j + 1) := by
  induction x with
  | nil => simp [afterSeparator] at h
  | cons b bs ih =>
    by_cases hb : b = 0x00#8
    · simp only [afterSeparator, if_pos hb, Option.some.injEq] at h
      exact ⟨0, by simp, hb, by simp, by simp [h]⟩
    · simp only [afterSeparator, if_neg hb] at h
      obtain ⟨j, hj, hz, hn, hm⟩ := ih h
      refine ⟨j + 1, by simpa using hj, hz, ?_, by simpa using hm⟩
      intro i hi
      cases i with
      | zero => exact hb
      | succ i => exact hn i (by omega)

/-- A message found in a block of n bytes has at most n - 3 of them (R153). -/
theorem padDecode_length {x m : Buf} (h : padDecode x = some m) : m.length + 3 ≤ x.length := by
  unfold padDecode at h
  split at h
  · cases h
  · obtain ⟨j, hj, -, -, rfl⟩ := afterSeparator_some_index _ _ h
    simp at hj ⊢
    omega

/-- The pad bytes hold no zero, so the separator is found where PadEncode put it. -/
theorem afterSeparator_pad (r : List Byte) (m : List Byte) :
    afterSeparator (r.map padByte ++ 0x00#8 :: m) = some m := by
  induction r with
  | nil => simp [afterSeparator]
  | cons a as ih => simp [afterSeparator, padByte_ne_zero, ih]

/-- PadDecode gives back what PadEncode padded, whatever was drawn. -/
theorem padDecode_padEncode (msg : Buf) (len : Nat) (r : List Byte) :
    padDecode (padEncode msg len r) = some (msg.take len) := by
  rw [padEncode_eq]
  unfold padDecode
  rw [if_neg (by simp [byteAt])]
  simpa using afterSeparator_pad r (msg.take len)

end Sys2Proof.Machine
end

