-- ==== Sys2Proof/Laws/Commands.lean ====
section
/-! SUPPORT. What each command can do: every meaning is one commit of its pseudocode, and what the pseudocode of
each answers. -/

namespace Sys2Proof.Machine

/-- The pseudocode a command runs (spec 30_encoding.md R113). -/
def commandBody (i : Instr) (s : State) : Except Err State :=
  match i with
  | .modexp => modexpBody s
  | .modinv => modinvBody s
  | .keygen => keygenBody s
  | .encodeMsg => encodeBody s
  | .decodeBlk => decodeBody s
  | .encrypt => encryptBody s
  | .decrypt => decryptBody s
  | .checkpad => checkpadBody s

/-- Every command is one commit of its pseudocode (R112, R113). -/
theorem exec_eq_commit (i : Instr) (s : State) : exec i s = .next (commit (commandBody i s) s) := by
  cases i <;> rfl

theorem modexpBody_cases (s : State) :
    (s.val .opm = 0 ∧ modexpBody s = .error .operand) ∨
      (s.val .opm ≠ 0 ∧ modexpBody s = .ok (s.setVal .res (s.val .opa ^ s.val .opb % s.val .opm))) := by
  by_cases h : s.val .opm = 0
  · exact .inl ⟨h, by simp [modexpBody, h]⟩
  · exact .inr ⟨h, by simp [modexpBody, h, modExp_eq]⟩

theorem modinvBody_cases (s : State) :
    (s.val .opm = 0 ∧ modinvBody s = .error .operand) ∨
      (s.val .opm ≠ 0 ∧ Nat.gcd (s.val .opa) (s.val .opm) ≠ 1 ∧ modinvBody s = .error .domain) ∨
      (s.val .opm ≠ 0 ∧ Nat.gcd (s.val .opa) (s.val .opm) = 1 ∧
        ∃ d, d < s.val .opm ∧ s.val .opa * d % s.val .opm = 1 % s.val .opm ∧ modinvBody s = .ok (s.setVal .res d)) := by
  by_cases h : s.val .opm = 0
  · exact .inl ⟨h, by simp [modinvBody, h]⟩
  · cases hi : modInv (s.val .opa) (s.val .opm) with
    | none => exact .inr (.inl ⟨h, (modInv_eq_none _ _).1 hi, by simp [modinvBody, h, hi]⟩)
    | some d =>
      obtain ⟨hg, hd, hinv⟩ := modInv_some (Nat.pos_of_ne_zero h) hi
      exact .inr (.inr ⟨h, hg, d, hd, hinv, by simp [modinvBody, h, hi]⟩)

theorem keygenBody_cases (s : State) :
    (s.keyValid = true ∧ keygenBody s = .error .keyLocked) ∨
      (s.keyValid = false ∧ ∃ c, keyDerive s.B (s.val .kp) (s.val .kq) (s.val .ke) = .error c ∧ keygenBody s = .error c) ∨
      (s.keyValid = false ∧ ∃ k, keyDerive s.B (s.val .kp) (s.val .kq) (s.val .ke) = .ok k ∧
        keygenBody s = .ok (installKey s k)) := by
  cases hk : s.keyValid with
  | true => exact .inl ⟨rfl, by simp [keygenBody, hk]⟩
  | false =>
    cases hd : keyDerive s.B (s.val .kp) (s.val .kq) (s.val .ke) with
    | error c => exact .inr (.inl ⟨rfl, c, rfl, by simp [keygenBody, hk, hd]⟩)
    | ok k => exact .inr (.inr ⟨rfl, k, rfl, by simp [keygenBody, hk, hd]⟩)

theorem encodeBody_cases (s : State) :
    (s.B < s.msgLen.toNat + 3 ∧ encodeBody s = .error .encoding) ∨
      (s.msgLen.toNat + 3 ≤ s.B ∧ encodeBody s = .ok (encodeWrites s s.msgLen.toNat)) := by
  by_cases h : s.B < s.msgLen.toNat + 3
  · exact .inl ⟨h, by simp [encodeBody, h]⟩
  · exact .inr ⟨by omega, by simp [encodeBody, h]⟩

theorem decodeBody_cases (s : State) :
    (padDecode s.blk = none ∧ decodeBody s = .error .padFormat) ∨
      (∃ m, padDecode s.blk = some m ∧ decodeBody s = .ok (decodeWrites s m)) := by
  cases h : padDecode s.blk with
  | none => exact .inl ⟨rfl, by simp [decodeBody, h]⟩
  | some m => exact .inr ⟨m, rfl, by simp [decodeBody, h]⟩

theorem encryptBody_cases (s : State) :
    (s.keyValid = false ∧ encryptBody s = .error .noKey) ∨
      (s.keyValid = true ∧ encryptBody s =
        .ok { s.setVal .ct (s.val .blk ^ s.val .ke % s.val .kn) with
              ctLen := BitVec.ofNat 32 s.B, wrap := wrapOf (s.val .blk) (s.val .kn) }) := by
  cases h : s.keyValid with
  | false => exact .inl ⟨rfl, by simp [encryptBody, h]⟩
  | true => exact .inr ⟨rfl, by simp [encryptBody, h, modExp_eq]⟩

theorem decryptBody_cases (s : State) :
    (s.keyValid = false ∧ decryptBody s = .error .noKey) ∨
      (s.keyValid = true ∧ s.ctLen.toNat ≠ s.B ∧ decryptBody s = .error .length) ∨
      (s.keyValid = true ∧ s.ctLen.toNat = s.B ∧ decryptBody s =
        .ok { s.setVal .blk (s.val .ct ^ s.kd % s.val .kn) with wrap := wrapOf (s.val .ct) (s.val .kn) }) := by
  cases h : s.keyValid with
  | false => exact .inl ⟨rfl, by simp [decryptBody, h]⟩
  | true =>
    by_cases hl : s.ctLen.toNat = s.B
    · exact .inr (.inr ⟨rfl, hl, by simp [decryptBody, h, hl, modExp_eq]⟩)
    · exact .inr (.inl ⟨rfl, hl, by simp [decryptBody, h, hl]⟩)

/-- The staged state of a command that succeeds is well-formed. -/
theorem State.WF.commandBody {s t : State} (h : s.WF) {i : Instr} (hb : commandBody i s = .ok t) : t.WF := by
  cases i with
  | modexp =>
    rcases modexpBody_cases s with ⟨-, he⟩ | ⟨-, he⟩ <;> simp only [Machine.commandBody, he] at hb <;> cases hb
    exact h.setVal _ _
  | modinv =>
    rcases modinvBody_cases s with ⟨-, he⟩ | ⟨-, -, he⟩ | ⟨-, -, d, -, -, he⟩ <;>
      simp only [Machine.commandBody, he] at hb <;> cases hb
    exact h.setVal _ _
  | keygen =>
    rcases keygenBody_cases s with ⟨-, he⟩ | ⟨-, c, -, he⟩ | ⟨-, k, hk, he⟩ <;>
      simp only [Machine.commandBody, he] at hb <;> cases hb
    obtain ⟨hp, hq, hn, -, hphi, -, hd, -⟩ := keyDerive_ok hk
    have hle : k.phi ≤ s.val .kp * s.val .kq := by
      rw [hphi]; exact Nat.mul_le_mul (by omega) (by omega)
    have hphi' : k.phi < 256 ^ s.B := by omega
    have hd' : k.d < 256 ^ s.B := by omega
    exact { h.setVal .kn k.n with kphi := hphi', kd := hd' }
  | encodeMsg =>
    rcases encodeBody_cases s with ⟨-, he⟩ | ⟨hl, he⟩ <;> simp only [Machine.commandBody, he] at hb <;> cases hb
    refine (h.advanceRng _).setBuf .blk ?_
    have hm := h.msg
    rw [length_padEncode (by omega), length_draws]
    simp only [State.B, advanceRng_build] at *
    omega
  | decodeBlk =>
    rcases decodeBody_cases s with ⟨-, he⟩ | ⟨m, hm, he⟩ <;> simp only [Machine.commandBody, he] at hb <;> cases hb
    have hlen := padDecode_length hm
    have hblk := h.blk
    have hmsg : (m ++ List.replicate (s.B - m.length) 0x00#8).length = s.B := by
      rw [List.length_append, List.length_replicate]; omega
    exact { h with msg := hmsg }
  | encrypt =>
    rcases encryptBody_cases s with ⟨-, he⟩ | ⟨-, he⟩ <;> simp only [Machine.commandBody, he] at hb <;> cases hb
    exact { h.setVal .ct (s.val .blk ^ s.val .ke % s.val .kn) with }
  | decrypt =>
    rcases decryptBody_cases s with ⟨-, he⟩ | ⟨-, -, he⟩ | ⟨-, -, he⟩ <;>
      simp only [Machine.commandBody, he] at hb <;> cases hb
    exact { h.setVal .blk (s.val .ct ^ s.kd % s.val .kn) with }
  | checkpad =>
    simp only [Machine.commandBody, checkpadBody] at hb
    cases hb
    exact { h with }

/-- A command never touches the registers that only the host, KEYGEN's inputs, the build or the environment own
(R104, R31, R38). -/
theorem commandBody_frame {s t : State} {i : Instr} (hb : commandBody i s = .ok t) :
    t.opa = s.opa ∧ t.opb = s.opb ∧ t.opm = s.opm ∧ t.kp = s.kp ∧ t.kq = s.kq ∧ t.ke = s.ke ∧
      t.curCmd = s.curCmd ∧ t.build = s.build ∧ t.host = s.host ∧ t.rng.given = s.rng.given := by
  cases i with
  | modexp =>
    rcases modexpBody_cases s with ⟨-, he⟩ | ⟨-, he⟩ <;> simp only [commandBody, he] at hb <;> cases hb
    simp [State.setVal]
  | modinv =>
    rcases modinvBody_cases s with ⟨-, he⟩ | ⟨-, -, he⟩ | ⟨-, -, d, -, -, he⟩ <;>
      simp only [commandBody, he] at hb <;> cases hb
    simp [State.setVal]
  | keygen =>
    rcases keygenBody_cases s with ⟨-, he⟩ | ⟨-, c, -, he⟩ | ⟨-, k, hk, he⟩ <;>
      simp only [commandBody, he] at hb <;> cases hb
    simp [installKey, State.setVal]
  | encodeMsg =>
    rcases encodeBody_cases s with ⟨-, he⟩ | ⟨hl, he⟩ <;> simp only [commandBody, he] at hb <;> cases hb
    simp [encodeWrites]
  | decodeBlk =>
    rcases decodeBody_cases s with ⟨-, he⟩ | ⟨m, hm, he⟩ <;> simp only [commandBody, he] at hb <;> cases hb
    simp [decodeWrites]
  | encrypt =>
    rcases encryptBody_cases s with ⟨-, he⟩ | ⟨-, he⟩ <;> simp only [commandBody, he] at hb <;> cases hb
    simp [State.setVal]
  | decrypt =>
    rcases decryptBody_cases s with ⟨-, he⟩ | ⟨-, -, he⟩ | ⟨-, -, he⟩ <;>
      simp only [commandBody, he] at hb <;> cases hb
    simp [State.setVal]
  | checkpad =>
    simp only [commandBody, checkpadBody] at hb
    cases hb
    simp

end Sys2Proof.Machine
end

