-- ==== Sys2Proof/Laws/Flags.lean ====
section
/-! SUPPORT. The STATUS word bit by bit (spec 10_state.md R43). -/

namespace Sys2Proof.Machine

theorem getLsbD_statusWord (s : State) (i : Nat) :
    (statusWord s).getLsbD i =
      if i < 1 then s.busy
      else if i < 2 then s.done
      else if i < 4 then false
      else if i < 8 then s.err.code.getLsbD (i - 4)
      else if i < 9 then s.oracle
      else if i < 10 then s.wrap
      else if i < 11 then s.keyValid
      else false := by
  unfold statusWord
  simp only [BitVec.getLsbD_append, BitVec.getLsbD_ofBool, BitVec.getLsbD_zero]
  grind (splits := 20)

end Sys2Proof.Machine
end

