-- ==== Sys2Proof/Laws/PerInstr.lean ====
section
/-! SUPPORT. The family CommandWord: what spec 30_encoding.md R100 and R101 say of every command's word. -/

namespace Sys2Proof.Laws.CommandWord

/-- RSV is 0 and OPC is the opcode of R101, between 0x01 and 0x08. -/
def Statement (i : Instr) : Prop :=
  rsvField (Sys2Proof.encode i) = 0#24 ∧ opcField (Sys2Proof.encode i) = opcodeOf i ∧
    1 ≤ (opcodeOf i).toNat ∧ (opcodeOf i).toNat ≤ 8

theorem modexp : Statement .modexp := by unfold Statement; decide
theorem modinv : Statement .modinv := by unfold Statement; decide
theorem keygen : Statement .keygen := by unfold Statement; decide
theorem encodeMsg : Statement .encodeMsg := by unfold Statement; decide
theorem decodeBlk : Statement .decodeBlk := by unfold Statement; decide
theorem encrypt : Statement .encrypt := by unfold Statement; decide
theorem decrypt : Statement .decrypt := by unfold Statement; decide
theorem checkpad : Statement .checkpad := by unfold Statement; decide

end Sys2Proof.Laws.CommandWord
end

