-- ==== Sys2Proof/Laws/Run.lean ====
section
/-! SUPPORT. Runs step by step, so that no proof unfolds the host's `Core.run`. -/

namespace Sys2Proof

open Machine

/-- A run of one step more is a step and then the run, for any machine behind the host's interface. -/
theorem coreRun_succ_iff (M : Host.Core) (n : Nat) (s t : M.State) :
    M.run (n + 1) s = .next t ↔ ∃ u, M.step s = .next u ∧ M.run n u = .next t := by
  rw [Host.Core.run]
  cases M.step s <;> simp

theorem runsTo_zero (s t : Machine.State) : RunsTo 0 s t ↔ s = t := by
  constructor
  · intro h; cases h; rfl
  · rintro rfl; rfl

theorem runsTo_succ (n : Nat) (s t : Machine.State) :
    RunsTo (n + 1) s t ↔ ∃ u, step s = .next u ∧ RunsTo n u t :=
  coreRun_succ_iff core n s t

/-- Two runs one after the other are one run. -/
theorem runsTo_add {m n : Nat} {s t u : Machine.State} (h1 : RunsTo m s t) (h2 : RunsTo n t u) : RunsTo (n + m) s u := by
  induction m generalizing s with
  | zero => rw [runsTo_zero] at h1; subst h1; exact h2
  | succ m ih =>
    obtain ⟨v, hv, h⟩ := (runsTo_succ _ _ _).1 h1
    exact (runsTo_succ _ _ _).2 ⟨v, hv, ih h⟩

end Sys2Proof
end

