-- ==== Sys2Proof/Laws/Step.lean ====
section
/-! SUPPORT. Everything a step can do, said once. -/

namespace Sys2Proof.Machine

/-- A completion runs the command CUR_CMD decodes to, or reports ERR_ILLEGAL (spec R112, R113). -/
theorem complete_cases (s : State) :
    (∃ i, decode s.curCmd = .ok i ∧ complete s = exec i s) ∨
      (∃ e, decode s.curCmd = .error e ∧ complete s = .next (finish .illegal s)) := by
  cases h : decode s.curCmd with
  | ok i => exact .inl ⟨i, rfl, by simp [complete, fetch, h]⟩
  | error e => exact .inr ⟨e, rfl, by simp [complete, fetch, h]⟩

/-- Everything the ENGINE's turn can do: nothing when idle; commit a command; report an illegal word. -/
theorem engineMove_cases (s : State) :
    (s.busy = false ∧ engineMove s = .next s) ∨
      (s.busy = true ∧ ∃ i, decode s.curCmd = .ok i ∧ engineMove s = .next (commit (commandBody i s) s)) ∨
      (s.busy = true ∧ ∃ e, decode s.curCmd = .error e ∧ engineMove s = .next (finish .illegal s)) := by
  cases hb : s.busy with
  | false => exact .inl ⟨rfl, by simp [engineMove, hb]⟩
  | true =>
    rcases complete_cases s with ⟨i, hi, he⟩ | ⟨e, hd, he⟩
    · exact .inr (.inl ⟨rfl, i, hi, by simp [engineMove, hb, he, exec_eq_commit]⟩)
    · exact .inr (.inr ⟨rfl, e, hd, by simp [engineMove, hb, he]⟩)

/-- The bit a POLL loop looks at is BUSY (R43). -/
theorem memRead_status_busy (s : State) : (memRead s 0x0004).getLsbD 0 = s.busy := by
  show (statusWord s).getLsbD 0 = s.busy
  rw [getLsbD_statusWord]
  simp

/-- Everything a round of a POLL loop does: it returns STATUS, and goes on while BUSY = 1. -/
theorem pollRound_eq (h : Nat) (gaps : List Nat) (s : State) :
    pollRound h gaps s = { s with host :=
      { pending := if s.busy then pollAgain h gaps s.host.pending else s.host.pending
        replies := { addr := s.build.base + 0x0004, data := statusWord s } :: s.host.replies } } := by
  rw [pollRound, memRead_status_busy]
  rfl

/-- Where `afterOthers` puts its event: after `k` events, none of them the host's own, and `k` is as large as it can
be. -/
theorem afterOthers_eq (h : Nat) (next : Event) (g : Nat) (es : List Event) :
    ∃ k, k ≤ g ∧ afterOthers h next g es = es.take k ++ next :: es.drop k ∧ (∀ e ∈ es.take k, e.ofHost h = false) ∧
      (k < g → ∀ e ∈ (es.drop k).head?, e.ofHost h = true) := by
  induction g generalizing es with
  | zero => exact ⟨0, Nat.le_refl 0, by simp [afterOthers], by simp, by simp⟩
  | succ g ih =>
    cases es with
    | nil => exact ⟨0, Nat.zero_le _, by simp [afterOthers], by simp, by simp⟩
    | cons e es =>
      cases he : e.ofHost h with
      | true => exact ⟨0, Nat.zero_le _, by simp [afterOthers, he], by simp, by simp [he]⟩
      | false =>
        obtain ⟨k, hk, heq, hall, hmax⟩ := ih es
        refine ⟨k + 1, Nat.succ_le_succ hk, by simp [afterOthers, he, heq], ?_, ?_⟩
        · simpa [he] using hall
        · intro hlt
          simpa using hmax (Nat.lt_of_succ_lt_succ hlt)

/-- Going on with a loop brings in no event but the ENGINE's turn and the loop itself. -/
theorem mem_pollAgain {h : Nat} {gaps : List Nat} {es : List Event} {e : Event} (he : e ∈ pollAgain h gaps es) :
    e ∈ es ∨ e = .engine ∨ ∃ gs, e = .poll h gs := by
  cases gaps with
  | nil =>
    simp only [pollAgain, List.mem_cons] at he
    rcases he with he | he | he
    · exact .inr (.inl he)
    · exact .inr (.inr ⟨_, he⟩)
    · exact .inl he
  | cons g gs =>
    obtain ⟨k, -, heq, -, -⟩ := afterOthers_eq h (.poll h gs) g es
    simp only [pollAgain, heq, List.mem_append, List.mem_cons] at he
    rcases he with he | he | he
    · exact .inl (List.mem_of_mem_take he)
    · exact .inr (.inr ⟨_, he⟩)
    · exact .inl (List.mem_of_mem_drop he)

/-- Everything a step can do: it is refused for the configuration, or it is the turn of the ENGINE, of a host access,
of reset or of a POLL loop. -/
theorem step_cases (s : State) :
    (s.build.wf = false ∧ step s = .refused .illegalConfiguration) ∨
      (s.build.wf = true ∧ s.host.pending = [] ∧ step s = engineMove s) ∨
      (s.build.wf = true ∧ ∃ es, s.host.pending = .engine :: es ∧ step s = engineMove (withPending s es)) ∨
      (s.build.wf = true ∧ ∃ a es, s.host.pending = .access a :: es ∧ step s = hostAccess a (withPending s es)) ∨
      (s.build.wf = true ∧ ∃ l es, s.host.pending = .reset l :: es ∧
        step s = .next (resetBlock (withPending s es))) ∨
      (s.build.wf = true ∧ ∃ h gaps es, s.host.pending = .poll h gaps :: es ∧
        step s = .next (pollRound h gaps (withPending s es))) := by
  cases hw : s.build.wf with
  | false => exact .inl ⟨rfl, by simp [step, hw]⟩
  | true =>
    cases hp : s.host.pending with
    | nil => exact .inr (.inl ⟨rfl, rfl, by simp [step, hw, move, hp]⟩)
    | cons e es =>
      cases e with
      | engine => exact .inr (.inr (.inl ⟨rfl, es, rfl, by simp [step, hw, move, hp, perform]⟩))
      | access a => exact .inr (.inr (.inr (.inl ⟨rfl, a, es, rfl, by simp [step, hw, move, hp, perform]⟩)))
      | reset l => exact .inr (.inr (.inr (.inr (.inl ⟨rfl, l, es, rfl, by simp [step, hw, move, hp, perform]⟩))))
      | poll h gaps =>
        exact .inr (.inr (.inr (.inr (.inr ⟨rfl, h, gaps, es, rfl, by simp [step, hw, move, hp, perform]⟩))))

/-- The ENGINE's turn leaves the build as it is. -/
theorem engineMove_build {s t : State} (h : engineMove s = .next t) : t.build = s.build := by
  rcases engineMove_cases s with ⟨-, e⟩ | ⟨-, i, -, e⟩ | ⟨-, e', -, e⟩ <;> rw [e] at h <;> cases h
  · rfl
  · rcases commit_cases (commandBody i s) s with ⟨t, ht, e⟩ | ⟨c, -, e⟩ <;> rw [e]
    · exact (commandBody_frame ht).2.2.2.2.2.2.2.1
    · rfl
  · rfl

/-- No step changes the build (R6). -/
theorem step_build {s t : State} (h : step s = .next t) : t.build = s.build := by
  rcases step_cases s with ⟨-, e⟩ | ⟨-, -, e⟩ | ⟨-, es, -, e⟩ | ⟨-, a, es, -, e⟩ | ⟨-, l, es, -, e⟩ |
    ⟨-, host, gaps, es, -, e⟩ <;> rw [e] at h
  · cases h
  · exact engineMove_build h
  · exact (engineMove_build h).trans (withPending_build s es)
  · rcases hostAccess_cases a (withPending s es) with ⟨-, e⟩ | ⟨-, -, e⟩ | ⟨-, -, -, e⟩ | ⟨-, -, v, -, e⟩ <;>
      rw [e] at h <;> cases h
    · rfl
    · rfl
    · exact (memWrite_frame _ _ _).1
  · cases h; rfl
  · cases h; rw [pollRound_eq]; rfl

end Sys2Proof.Machine
end

