-- ==== Sys2Proof/Tests/Slice0.lean ====
section
/-! SUPPORT. Tests. Expected results are those of spec/95_test_vectors.md (the vector is named) or of the rule named.
The `witness_` theorems show states that meet the hypotheses of the statements. -/

namespace Sys2Proof.Tests

open Machine

-- One theorem at a time: checked at once, the many small evaluations below would each hold a thread.
set_option Elab.async false

/-! ### The refused terms, one for each check of WellFormed -/

/-- The build of the vectors: B = 16, the key inputs of R6. The window is put at 0x40000000. -/
def b16 : Build where
  blockBytes := 16
  keyP0 := 1000000000000000003
  keyQ0 := 1000000000000000019
  keyE0 := 65537
  base := 0x40000000

theorem test_build_legal : b16.wf = true ∧ Build.hardware.wf = true := by decide +kernel
theorem test_build_not_multiple_of_4 : { b16 with blockBytes := 18 }.wf = false := by decide +kernel
theorem test_build_too_small :
    Build.wf { blockBytes := 0, keyP0 := 0, keyQ0 := 0, keyE0 := 0, base := 0 } = false := by decide
theorem test_build_too_large : { b16 with blockBytes := 4100 }.wf = false := by decide +kernel
theorem test_build_p_too_large : { b16 with keyP0 := 256 ^ 16 }.wf = false := by decide +kernel
theorem test_build_q_too_large : { b16 with keyQ0 := 256 ^ 16 }.wf = false := by decide +kernel
theorem test_build_e_too_large : { b16 with keyE0 := 256 ^ 16 }.wf = false := by decide +kernel

/-- A read of `bytes` bytes at a bus address, by host 0. -/
def readOf (addr bytes : Nat) : Access where
  host := 0
  addr := addr
  bytes := bytes
  op := .read

/-- A write of a word at an offset of the window of `b16`, by host 0. -/
def writeAt (off : Nat) (v : Word) : Access where
  host := 0
  addr := 0x40000000 + off
  bytes := 4
  op := .write v

theorem test_access_sizes : (readOf 0x40000000 1).wf b16 = false ∧ (readOf 0x40000000 2).wf b16 = false ∧
    (readOf 0x40000000 8).wf b16 = false ∧ (readOf 0x40000000 4).wf b16 = true := by decide
theorem test_access_alignment : (readOf 0x40000002 4).wf b16 = false := by decide
theorem test_access_window : (readOf 0x3FFFFFFF 4).routed b16 = false ∧ (readOf 0x40010000 4).routed b16 = false ∧
    (readOf 0x40000000 4).routed b16 = true ∧ (readOf 0x4000FFFC 4).routed b16 = true := by decide
theorem test_event_contract : (Event.access (readOf 0x40000000 2)).inContract b16 = false ∧
    (Event.access (readOf 0x50000001 2)).inContract b16 = true := by decide
theorem test_line_offsets : (HostLine.wr 0x10000 0#32).wf b16 = false ∧ (HostLine.wr 0x0002 0#32).wf b16 = false ∧
    (HostLine.rd 0x10000).wf b16 = false ∧ (HostLine.rd 0x0001).wf b16 = false := by decide
theorem test_line_ldi : (HostLine.ldi .opa (256 ^ 16)).wf b16 = false := by decide +kernel
/-- R117 sets no limit on LDB's data. -/
theorem test_line_ldb : (HostLine.ldb .msg (List.replicate 17 0#8)).wf b16 = true := by decide +kernel

/-! ### Decoding (R100 to R103), words written out: RSV in bits 31:8, OPC in bits 7:0 -/

theorem test_decode_modexp : decode 0b00000000000000000000000000000001#32 = .ok .modexp := by rfl
theorem test_decode_modinv : decode 0b00000000000000000000000000000010#32 = .ok .modinv := by rfl
theorem test_decode_keygen : decode 0b00000000000000000000000000000011#32 = .ok .keygen := by rfl
theorem test_decode_encode : decode 0b00000000000000000000000000000100#32 = .ok .encodeMsg := by rfl
theorem test_decode_decode : decode 0b00000000000000000000000000000101#32 = .ok .decodeBlk := by rfl
theorem test_decode_encrypt : decode 0b00000000000000000000000000000110#32 = .ok .encrypt := by rfl
theorem test_decode_decrypt : decode 0b00000000000000000000000000000111#32 = .ok .decrypt := by rfl
theorem test_decode_checkpad : decode 0b00000000000000000000000000001000#32 = .ok .checkpad := by rfl
theorem test_decode_illegal : decode 0x00000000#32 = .error .opcodeZero ∧
    decode 0x00000009#32 = .error .opcodeUnassigned ∧ decode 0x000000FF#32 = .error .opcodeUnassigned ∧
    decode 0x00000109#32 = .error .reservedBits ∧ decode 0x00000101#32 = .error .reservedBits ∧
    decode 0x80000001#32 = .error .reservedBits := by
  exact ⟨rfl, rfl, rfl, rfl, rfl, rfl⟩

/-! ### States the tests start from -/

/-- The reset state at B = 16. -/
def s0 : State :=
  State.resetOf b16

/-- What a command leaves. -/
def after (i : Instr) (s : State) : State :=
  match exec i s with
  | .next t => t
  | .fault _ => s
  | .refused _ => s

theorem exec_after (i : Instr) (s : State) : exec i s = .next (after i s) := by
  rw [after, exec_eq_commit]

/-- Operands of MODEXP and MODINV. -/
def operands (a b m : Nat) : State :=
  ((s0.setVal .opa a).setVal .opb b).setVal .opm m

/-- Key inputs written, no key yet. -/
def inputs (p q e : Nat) : State :=
  ((s0.setVal .kp p).setVal .kq q).setVal .ke e

/-- The test key of the vectors, installed. -/
def keyed : State :=
  after .keygen (inputs 1000000000000000507 1000000000000000523 65537)

/-- The textbook key of the vectors, installed. -/
def textbook : State :=
  after .keygen (inputs 61 53 17)

/-- BLK0 of 2.5: the block of V3.1. -/
def blk0 : Buf :=
  [0x00#8, 0x02#8, 0xff#8, 0x11#8, 0x22#8, 0x33#8, 0x44#8, 0x55#8, 0x66#8, 0x77#8, 0x88#8, 0x00#8, 0x54#8, 0x45#8,
   0x53#8, 0x54#8]

/-- A state in which a command is in flight, with the events given still to come. -/
def busyWith (i : Instr) (es : List Event) : State :=
  withPending (issue (encode i) keyed) es

/-- A message "TEST" to encode, with the draws of V3.1. -/
def message : State :=
  { s0 with
    msg := [0x54#8, 0x45#8, 0x53#8, 0x54#8] ++ List.replicate 12 0#8
    msgLen := 4#32
    rng := { given := [0x00#8, 0x11#8, 0x22#8, 0x33#8, 0x44#8, 0x55#8, 0x66#8, 0x77#8, 0x88#8], pos := 0 } }

/-- A block to decode, before each row of which MSG is 16 times aa and MSG_LEN is 7. -/
def toDecode (b : Buf) : State :=
  { s0 with blk := b, msg := List.replicate 16 0xaa#8, msgLen := 7#32 }

/-! ### The commands -/

/-- V1.1. -/
theorem test_modexp : (after .modexp (operands 4 13 497)).val .res = 445 ∧
    statusWord (after .modexp (operands 4 13 497)) = 0x002#32 := by decide +kernel
/-- V1.9. -/
theorem test_modexp_even_modulus :
    (after .modexp (operands 2 (2 ^ 128 - 1) (2 ^ 128 - 1))).val .res = 170141183460469231731687303715884105728 := by
  decide +kernel
/-- V2.2. -/
theorem test_modinv_reduces : (after .modinv (operands 14 0 11)).val .res = 4 ∧
    statusWord (after .modinv (operands 14 0 11)) = 0x002#32 := by decide +kernel
/-- V2.7. -/
theorem test_modinv_domain : (after .modinv (operands 2 0 4)).res = s0.res ∧
    statusWord (after .modinv (operands 2 0 4)) = 0x012#32 := by decide +kernel
/-- V2.22. -/
theorem test_keygen : textbook.val .kn = 3233 ∧ textbook.kphi = 3120 ∧ textbook.kd = 2753 ∧
    statusWord textbook = 0x402#32 := by decide +kernel
/-- V2.25 and V2.29. -/
theorem test_keygen_too_large : statusWord (after .keygen (inputs (2 ^ 64 + 13) (2 ^ 64 + 51) 65537)) = 0x052#32 ∧
    (after .keygen (inputs (2 ^ 64 + 13) (2 ^ 64 + 51) 65537)).val .kn = 0 ∧
    statusWord (after .keygen textbook) = 0x472#32 := by decide +kernel
/-- V3.1. -/
theorem test_encode : (after .encodeMsg message).blk = blk0 ∧ (after .encodeMsg message).rng.pos = 9 := by
  decide +kernel
/-- V3.5: L is the full 32-bit value. -/
theorem test_encode_length : statusWord (after .encodeMsg { message with msgLen := 0xFFFFFFFF#32 }) = 0x022#32 := by
  decide +kernel
/-- V3.6. -/
theorem test_decode : (after .decodeBlk (toDecode blk0)).msgLen = 4#32 ∧ (after .decodeBlk (toDecode blk0)).msg =
    [0x54#8, 0x45#8, 0x53#8, 0x54#8] ++ List.replicate 12 0#8 := by decide +kernel
/-- V3.10: the first zero is the separator; and V3.13. -/
theorem test_decode_first_zero :
    (after .decodeBlk (toDecode ([0#8, 2#8, 0#8, 0#8, 0#8] ++ List.replicate 11 0x41#8))).msgLen = 13#32 ∧
    (after .decodeBlk (toDecode ([0#8, 2#8, 0#8, 0#8, 0#8] ++ List.replicate 11 0x41#8))).msg =
      [0#8, 0#8] ++ List.replicate 11 0x41#8 ++ [0#8, 0#8, 0#8] ∧
    statusWord (after .decodeBlk (toDecode (List.replicate 16 0#8))) = 0x032#32 := by decide +kernel
/-- V4.1. -/
theorem test_encrypt : (after .encrypt { keyed with blk := blk0 }).val .ct = 285697071901582828772323260576366253 ∧
    (after .encrypt { keyed with blk := blk0 }).ctLen = 16#32 ∧
    statusWord (after .encrypt { keyed with blk := blk0 }) = 0x402#32 := by decide +kernel
/-- V4.9. -/
theorem test_encrypt_no_key : statusWord (after .encrypt s0) = 0x062#32 := by decide +kernel
/-- V4.4: a ciphertext c + n is reduced, and flagged. -/
theorem test_decrypt_wraps :
    (after .decrypt { keyed.setVal .ct 0x00f79dc27ee52faaf4bb78dd1ef90a76 with ctLen := 16#32 }).blk = blk0 ∧
    (after .decrypt { keyed.setVal .ct 0x00f79dc27ee52faaf4bb78dd1ef90a76 with ctLen := 16#32 }).wrap = true := by
  decide +kernel
/-- V4.8. -/
theorem test_decrypt_length : statusWord (after .decrypt { keyed with ctLen := 15#32 }) = 0x442#32 := by
  decide +kernel
/-- V5.1. -/
theorem test_checkpad : statusWord (after .checkpad
    { keyed.setVal .ct 0x003705f4031c285d6b50c2f9a29cfead with ctLen := 16#32 }) = 0x502#32 := by decide +kernel
/-- V5.5: under the doc key the same block does not come back. -/
theorem test_checkpad_doc_key : statusWord (after .checkpad
    { (after .keygen s0).setVal .ct 0x00703e407b75b76614fb459de2ed144b with ctLen := 16#32 }) = 0x402#32 := by
  decide +kernel

/-! ### The bus -/

/-- V6.5 to V6.8 and V6.12. -/
theorem test_bus_reads : memRead s0 0x0010 = 0x10#32 ∧ memRead (operands 1 1 1) 0x1010 = 0#32 ∧
    memRead s0 0x0100 = 0#32 ∧ memRead s0 0x8008 = 0#32 ∧
    memRead (memWrite s0 0x0008 0xFFFFFFFF#32) 0x0008 = 0xFFFFFFFF#32 := by decide +kernel
/-- P2: KN and KE as read word by word. -/
theorem test_bus_words : memRead keyed 0xB000 = 0x00C097CE#32 ∧ memRead keyed 0xB00C = 0x7C5C0BC9#32 ∧
    memRead keyed 0xA00C = 0x00010001#32 ∧ memWrite keyed 0x800C 5#32 = keyed := by decide +kernel
/-- V6.10: a write to CMD while busy is not queued. -/
theorem test_bus_busy : memWrite (issue 1#32 s0) 0x0000 2#32 = issue 1#32 s0 ∧ statusWord (issue 1#32 s0) = 1#32 := by
  decide +kernel
/-- R117, V3.1's LDB and P1's LDI, as placed by the assembler. -/
theorem test_line_expansion :
    lineEvents 0 b16 (.ldb .msg [0x54#8, 0x45#8, 0x53#8]) = [.access (writeAt 0x5000 0x54455300#32)] ∧
    lineEvents 0 b16 (.ldi .opm 497) = [.access (writeAt 0x3000 0#32), .access (writeAt 0x3004 0#32),
      .access (writeAt 0x3008 0#32), .access (writeAt 0x300C 0x1F1#32)] := by decide +kernel
/-- R117: LDB writes past the register, where nothing is stored (R75). -/
theorem test_line_ldb_past_register :
    (lineEvents 0 b16 (.ldb .msg (List.replicate 17 1#8))).getLast? = some (.access (writeAt 0x5010 0x01000000#32)) ∧
    memWrite s0 0x5010 0x01000000#32 = s0 := by decide +kernel
/-- R117: a POLL loop on an idle block ends at its first read. -/
theorem test_poll_idle : ∀ gaps ∈ [[], [0, 0]],
    (pollRound 0 gaps (withPending s0 [.engine])).host.pending = [.engine] := by decide +kernel
/-- R117: the POLL loop of host 1 on a busy block reads again, after one event of host 0 but before its own. -/
theorem test_poll_busy :
    (pollRound 1 [1] (busyWith .encrypt [.access (writeAt 0 1#32), .engine])).host.pending =
      [.access (writeAt 0 1#32), .poll 1 [], .engine] ∧
    (pollRound 0 [1] (busyWith .encrypt [.access (writeAt 0 1#32), .engine])).host.pending =
      [.poll 0 [], .access (writeAt 0 1#32), .engine] := by decide +kernel

/-! ### Witnesses: what the statements assume can hold -/

theorem s0_wf : s0.WF := by constructor <;> decide +kernel
theorem s0_inv : s0.KeyInv := ⟨by decide +kernel, by decide +kernel⟩
theorem operands_wf : (operands 4 13 497).WF := by constructor <;> decide +kernel
theorem keyed_wf : keyed.WF := by constructor <;> decide +kernel
theorem keyed_inv : keyed.KeyInv := ⟨by decide +kernel, by decide +kernel⟩

theorem busyWith_wf : (busyWith .encrypt [.engine]).WF := by constructor <;> decide +kernel

theorem witness_ResetStepRestoresEveryRegister : ∃ (s : State) (lost : List Access) (es : List Event),
    s.build.wf = true ∧ s.host.pending = .reset lost :: es ∧ (∀ a ∈ lost, (Event.access a).inContract s.build = true) ∧
    s.busy = true ∧ s.keyValid = true ∧ lost ≠ [] :=
  ⟨busyWith .encrypt [.reset [writeAt 0 1#32], .engine], _, _, by decide +kernel, rfl, by decide +kernel, rfl, rfl, by decide⟩

/-- A reset with a misaligned write delivered during it. -/
theorem witness_ResetDropsEveryAccess : ∃ (s : State) (lost : List Access) (es : List Event), s.build.wf = true ∧
    s.host.pending = .reset lost :: es ∧ ∃ a ∈ lost, (Event.access a).inContract s.build = false :=
  ⟨busyWith .encrypt [.reset [writeAt 2 1#32]], _, _, by decide +kernel, rfl, _, List.mem_singleton_self _, by decide +kernel⟩

theorem witness_StepKeepsTheStateWellFormed : ∃ s t : State, s.WF ∧ step s = .next t ∧ s.busy = true :=
  ⟨busyWith .encrypt [.engine], _, busyWith_wf, rfl, rfl⟩

theorem witness_StepKeepsTheKeyInvariant : ∃ s t : State, s.WF ∧ s.KeyInv ∧ step s = .next t ∧ s.keyValid = true :=
  ⟨busyWith .encrypt [.engine], _, busyWith_wf, ⟨by decide +kernel, by decide +kernel⟩, rfl, rfl⟩

theorem witness_EngineStepRunsTheDecodedCommand : ∃ (s : State) (es : List Event) (i : Instr),
    s.build.wf = true ∧ EngineTurn s es ∧ s.busy = true ∧ decode s.curCmd = .ok i :=
  ⟨busyWith .encrypt [.engine], [], .encrypt, by decide +kernel, .inl rfl, rfl, rfl⟩

theorem witness_EngineStepRunsTheDecodedCommand_nothing_pending : ∃ (s : State) (es : List Event) (i : Instr),
    s.build.wf = true ∧ EngineTurn s es ∧ s.busy = true ∧ decode s.curCmd = .ok i :=
  ⟨busyWith .modinv [], [], .modinv, by decide +kernel, .inr ⟨rfl, rfl⟩, rfl, rfl⟩

theorem witness_PlacedCommandRunsNext : s0.build.wf = true := by decide +kernel

theorem witness_DecodeAndEncodeAgree :
    Instr.wf .checkpad = true ∧ decode 0x00000008#32 = .ok .checkpad ∧ decode 0x00000001#32 = .ok .modexp :=
  ⟨rfl, rfl, rfl⟩

theorem witness_IllegalWordReportsErrIllegal : ∃ (s : State) (es : List Event) (e : DecodeError),
    s.build.wf = true ∧ EngineTurn s es ∧ s.busy = true ∧ decode s.curCmd = .error e :=
  ⟨withPending (issue 0x00000109#32 keyed) [.engine], [], _, by decide +kernel, .inl rfl, rfl, rfl⟩

theorem witness_IllegalWordReportsErrIllegal_words : ∀ w ∈ [0x00000100#32, 0x00000000#32, 0x00000009#32, 0x000000FF#32],
    ∃ e, decode w = .error e := by
  intro w hw
  fin_cases hw <;> exact ⟨_, rfl⟩

theorem witness_CommandWriteIssues_idle : ∃ (s : State) (a : Access) (es : List Event) (v : Word),
    s.build.wf = true ∧ AccessTurn s a es ∧ a.op = .write v ∧ a.offset s.build = 0x0000 ∧ s.busy = false :=
  ⟨withPending keyed [.access (writeAt 0 1#32)], writeAt 0 1#32, [], 1#32, by decide +kernel,
    ⟨rfl, by decide +kernel, by decide +kernel⟩, rfl, rfl, rfl⟩

theorem witness_CommandWriteIssues_busy : ∃ (s : State) (a : Access) (es : List Event) (v : Word),
    s.build.wf = true ∧ AccessTurn s a es ∧ a.op = .write v ∧ a.offset s.build = 0x0000 ∧ s.busy = true :=
  ⟨busyWith .encrypt [.access (writeAt 0 1#32)], writeAt 0 1#32, [], 1#32, by decide +kernel,
    ⟨rfl, by decide +kernel, by decide +kernel⟩, rfl, rfl, rfl⟩

theorem witness_IdleBlockKeepsItsState : ∃ (s : State) (es : List Event),
    s.build.wf = true ∧ EngineTurn s es ∧ s.busy = false :=
  ⟨withPending keyed [.engine], [], by decide +kernel, .inl rfl, rfl⟩

theorem witness_AccessesHaveNoSideEffect_read : ∃ (s : State) (a : Access) (es : List Event),
    s.build.wf = true ∧ AccessTurn s a es ∧ a.op = .read :=
  ⟨withPending keyed [.access (readOf 0x4000B000 4)], _, [], by decide +kernel,
    ⟨rfl, by decide +kernel, by decide +kernel⟩, rfl⟩

theorem witness_AccessesHaveNoSideEffect_write : ∃ (s : State) (a : Access) (es : List Event) (v : Word),
    s.build.wf = true ∧ AccessTurn s a es ∧ a.op = .write v :=
  ⟨withPending keyed [.access (writeAt 0x5000 7#32)], _, [], 7#32, by decide +kernel,
    ⟨rfl, by decide +kernel, by decide +kernel⟩, rfl⟩

theorem witness_StatusReadShowsTheFields : ∃ s : State, s.WF ∧ s.busy = true ∧ (memRead s 0x0004).getLsbD 0 = true :=
  ⟨busyWith .encrypt [.engine], busyWith_wf, rfl, by decide +kernel⟩

theorem witness_AccessesHaveNoSideEffect_idempotent : 0x5000 ≠ 0x0000 ∧ (busyWith .encrypt []).busy = true :=
  ⟨by decide, rfl⟩

theorem witness_CfgHoldsTheBlockSize : ∃ s t : State, s.WF ∧ step s = .next t ∧ s.keyValid = true :=
  ⟨busyWith .encrypt [.engine], _, busyWith_wf, rfl, rfl⟩

/-- The first and the last word of a region that is both readable and writable. -/
theorem witness_RegionWordsAreBigEndian : ∃ (s : State) (x : BigReg), s.WF ∧ 4 * 0 < s.B ∧ 4 * 3 < s.B ∧
    hostReadable x = true ∧ s.busy = false ∧ hostWritable s x = true :=
  ⟨keyed, .ct, keyed_wf, by decide, by decide, rfl, rfl, rfl⟩

theorem witness_WrittenWordIsReadBack : ∃ (s : State) (x : BigReg) (off : Nat), s.WF ∧ 4 * 3 < s.B ∧ s.busy = false ∧
    hostWritable s x = true ∧ hostReadable x = true ∧ off % 4 = 0 ∧ off ≠ regionBase x + 4 * 3 :=
  ⟨keyed, .ct, 0x7008, keyed_wf, by decide, rfl, rfl, rfl, by decide, by decide⟩

theorem witness_LengthRegistersKeepWhatIsWritten : keyed.busy = false := rfl

/-- The first offset past the register and the last word of its region. -/
theorem witness_WordsPastTheRegisterAreInert : (16 % 4 = 0 ∧ 16 < 0x1000 ∧ s0.B ≤ 16) ∧
    (0xFFC % 4 = 0 ∧ 0xFFC < 0x1000 ∧ s0.B ≤ 0xFFC) := by decide

theorem witness_UnmappedOffsetsAreInert : ∀ off ∈ [0x0014, 0x0FFF, 0xC000, 0xFFFF],
    (0x0014 ≤ off ∧ off ≤ 0x0FFF) ∨ (0xC000 ≤ off ∧ off ≤ 0xFFFF) := by decide

theorem witness_WrongDirectionAccessesAreInert : 0 < 0x1000 ∧ 0xFFC < 0x1000 := by decide

theorem witness_LockedKeyIgnoresWrites : ∃ (s : State) (i : Nat), s.keyValid = true ∧ i < 0x1000 :=
  ⟨keyed, 0xC, rfl, by decide⟩

theorem witness_BusyBlockIgnoresWrites : ∃ (s : State) (a : Access) (es : List Event) (v : Word),
    s.build.wf = true ∧ AccessTurn s a es ∧ a.op = .write v ∧ s.busy = true :=
  ⟨busyWith .encrypt [.access (writeAt 0x6000 1#32)], _, [], 1#32, by decide +kernel,
    ⟨rfl, by decide +kernel, by decide +kernel⟩, rfl, rfl⟩

/-- A write and a read delivered between the issue and the completion. -/
def twoAccesses : State :=
  withPending keyed [.access (writeAt 0x6000 1#32), .access (readOf 0x40000004 4), .engine]

theorem witness_BusyReadsShowTheStateAtIssue : ∃ (s t : State) (v : Word) (n : Nat), s.busy = false ∧
    n ≤ s.host.pending.length ∧ (∀ e ∈ s.host.pending.take n, e.isAccess = true) ∧ RunsTo n (issue v s) t ∧ n = 2 :=
  ⟨twoAccesses, _, 6#32, 2, rfl, by decide, by decide, rfl, rfl⟩

theorem witness_BusyBlockKeepsItsOperands : ∃ (s t : State) (n : Nat), s.busy = true ∧ n ≤ s.host.pending.length ∧
    (∀ e ∈ s.host.pending.take n, e.isAccess = true) ∧ RunsTo n s t ∧ n = 2 :=
  ⟨issue 6#32 twoAccesses, _, 2, rfl, by decide, by decide, rfl, rfl⟩

theorem witness_HazardFreeWriteIsPerformed : ∃ (s : State) (a : Access) (es : List Event) (v : Word),
    s.build.wf = true ∧ AccessTurn s a es ∧ a.op = .write v ∧ HazardFree s (.access a) :=
  ⟨withPending keyed [.access (writeAt 0x6000 1#32)], _, [], 1#32, by decide +kernel,
    ⟨rfl, by decide +kernel, by decide +kernel⟩, rfl, fun h => nomatch h⟩

theorem witness_AccessOutsideTheContractIsRefused_narrow : ∃ (s : State) (a : Access) (es : List Event),
    s.build.wf = true ∧ s.host.pending = .access a :: es ∧ a.routed s.build = true ∧ a.bytes ≠ 4 :=
  ⟨withPending s0 [.access (readOf 0x40000000 2)], _, [], by decide +kernel, rfl, by decide, by decide⟩

theorem witness_AccessOutsideTheContractIsRefused_misaligned : ∃ (s : State) (a : Access) (es : List Event),
    s.build.wf = true ∧ s.host.pending = .access a :: es ∧ a.routed s.build = true ∧ a.bytes = 4 ∧
      a.offset s.build % 4 ≠ 0 :=
  ⟨withPending s0 [.access (readOf 0x4000FFFF 4)], _, [], by decide +kernel, rfl, by decide, rfl, by decide⟩

theorem witness_AccessOutsideTheContractIsRefused_legal : ∃ (s : State) (a : Access) (es : List Event),
    s.build.wf = true ∧ s.host.pending = .access a :: es ∧ a.routed s.build = true ∧ a.bytes = 4 ∧
      a.offset s.build % 4 = 0 :=
  ⟨withPending s0 [.access (readOf 0x4000FFFC 4)], _, [], by decide +kernel, rfl, by decide, rfl, by decide⟩

/-- One state for each limit of R6. -/
theorem witness_IllegalConfigurationIsRefused :
    ∀ b ∈ [{ b16 with blockBytes := 18 }, { blockBytes := 0, keyP0 := 0, keyQ0 := 0, keyE0 := 0, base := 0 },
      { b16 with blockBytes := 4100 }, { b16 with keyP0 := 256 ^ 16 }, { b16 with keyQ0 := 256 ^ 16 },
      { b16 with keyE0 := 256 ^ 16 }],
    ¬ ((State.resetOf b).B % 4 = 0 ∧ 4 ≤ (State.resetOf b).B ∧ (State.resetOf b).B ≤ 4096 ∧
      (State.resetOf b).build.keyP0 < 256 ^ (State.resetOf b).B ∧
      (State.resetOf b).build.keyQ0 < 256 ^ (State.resetOf b).B ∧
      (State.resetOf b).build.keyE0 < 256 ^ (State.resetOf b).B) := by decide +kernel

/-- The addresses just below and just above the window. -/
theorem witness_OtherAddressesAreNotServed : ∀ addr ∈ [0x3FFFFFFF, 0x40010000],
    (withPending s0 [.access (readOf addr 4)]).build.wf = true ∧
    ¬ (b16.base ≤ (readOf addr 4).addr ∧ (readOf addr 4).addr < b16.base + 0x10000) := by decide +kernel

theorem witness_ModexpComputesThePower : ∃ s t : State, s.WF ∧ s.val .opm ≠ 0 ∧ t.WF ∧ t.val .opm = 0 :=
  ⟨operands 4 13 497, s0, operands_wf, by decide +kernel, by constructor <;> decide +kernel, by decide +kernel⟩

theorem witness_ModinvComputesTheInverse : ∃ s t u : State, s.WF ∧ s.val .opm ≠ 0 ∧
    Nat.gcd (s.val .opa) (s.val .opm) = 1 ∧ t.WF ∧ t.val .opm ≠ 0 ∧ Nat.gcd (t.val .opa) (t.val .opm) ≠ 1 ∧ u.WF ∧
    u.val .opm = 0 :=
  ⟨operands 4 13 497, operands 2 0 4, s0, operands_wf, by decide +kernel, by decide +kernel,
    by constructor <;> decide +kernel, by decide +kernel, by decide +kernel, by constructor <;> decide +kernel,
    by decide +kernel⟩

theorem witness_KeygenBuildsTheKeyOnce_locked : ∃ s : State, s.WF ∧ s.keyValid = true := ⟨keyed, keyed_wf, rfl⟩

theorem inputs_wf (p q e : Nat) : (inputs p q e).WF :=
  ((s0_wf.setVal .kp p).setVal .kq q).setVal .ke e

/-- V2.23, V2.24 and V2.25, one for each operand check. -/
theorem witness_KeygenBuildsTheKeyOnce_operand : ∃ s t u : State, s.WF ∧ s.keyValid = false ∧ s.val .kp < 2 ∧
    t.WF ∧ t.keyValid = false ∧ t.val .kq < 2 ∧ u.WF ∧ u.keyValid = false ∧ 256 ^ u.B ≤ u.val .kp * u.val .kq :=
  ⟨inputs 1 7 3, inputs 7 0 3, inputs (2 ^ 64 + 13) (2 ^ 64 + 51) 65537, inputs_wf _ _ _, rfl, by decide +kernel,
    inputs_wf _ _ _, rfl, by decide +kernel, inputs_wf _ _ _, rfl, by decide +kernel⟩

/-- V2.27 and V2.28, whose phi is 1. -/
theorem witness_KeygenBuildsTheKeyOnce_key : ∃ s t : State, s.WF ∧ s.keyValid = false ∧ 2 ≤ s.val .kp ∧
    2 ≤ s.val .kq ∧ s.val .kp * s.val .kq < 256 ^ s.B ∧
    Nat.gcd (s.val .ke) ((s.val .kp - 1) * (s.val .kq - 1)) ≠ 1 ∧ t.WF ∧ t.keyValid = false ∧ 2 ≤ t.val .kp ∧
    2 ≤ t.val .kq ∧ t.val .kp * t.val .kq < 256 ^ t.B ∧
    Nat.gcd (t.val .ke) ((t.val .kp - 1) * (t.val .kq - 1)) = 1 :=
  ⟨inputs 7 13 3, inputs 2 2 0, inputs_wf _ _ _, rfl, by decide +kernel, by decide +kernel, by decide +kernel,
    by decide +kernel, inputs_wf _ _ _, rfl, by decide +kernel, by decide +kernel, by decide +kernel,
    by decide +kernel⟩

theorem message_wf : message.WF := by constructor <;> decide +kernel

/-- A message of length 14, one more than B - 3. -/
theorem witness_EncodePadsTheMessage_too_long : ∃ s : State, s.WF ∧ s.B - 3 < s.msgLen.toNat :=
  ⟨{ message with msgLen := 14#32 }, by constructor <;> decide +kernel, by decide⟩

/-- Lengths 13, with no draw, and 0. -/
theorem witness_EncodePadsTheMessage : ∃ s t : State, s.WF ∧ s.msgLen.toNat + 0 = s.B - 3 ∧ t.WF ∧
    t.msgLen.toNat + 13 = t.B - 3 :=
  ⟨{ message with msgLen := 13#32 }, s0, by constructor <;> decide +kernel, by decide,
    by constructor <;> decide +kernel, by decide⟩

theorem toDecode_wf (b : Buf) (h : b.length = 16) : (toDecode b).WF :=
  { s0_wf with blk := h, msg := rfl }

/-- V3.8, V3.9 and V3.7, one for each way to be badly padded. -/
theorem witness_DecodeUnpadsTheBlock_bad : ∃ s t u : State, s.WF ∧ byteAt s.blk 0 ≠ 0x00#8 ∧ t.WF ∧
    byteAt t.blk 1 ≠ 0x02#8 ∧ u.WF ∧ ∀ j, 2 ≤ j → j < u.B → byteAt u.blk j ≠ 0x00#8 :=
  ⟨toDecode (blk0.set 0 0x01#8), toDecode (blk0.set 1 0x01#8), toDecode ([0#8, 2#8] ++ List.replicate 14 0x11#8),
    toDecode_wf _ rfl, by decide, toDecode_wf _ rfl, by decide, toDecode_wf _ rfl, by
      intro j h2 hj
      have : ∀ j < 16, 2 ≤ j → byteAt ([0#8, 2#8] ++ List.replicate 14 0x11#8) j ≠ 0x00#8 := by decide
      exact this j hj h2⟩

/-- The separator at its first place, and at its last. -/
theorem witness_DecodeUnpadsTheBlock : ∀ j ∈ [2, 15], ∃ s : State, s.WF ∧ byteAt s.blk 0 = 0x00#8 ∧
    byteAt s.blk 1 = 0x02#8 ∧ 2 ≤ j ∧ j < s.B ∧ byteAt s.blk j = 0x00#8 ∧
    ∀ i, 2 ≤ i → i < j → byteAt s.blk i ≠ 0x00#8 := by
  intro j hj
  refine ⟨toDecode (([0#8, 2#8] ++ List.replicate 14 0x11#8).set j 0#8), toDecode_wf _ (by simp), ?_⟩
  have : ∀ j ∈ [2, 15], byteAt (([0#8, 2#8] ++ List.replicate 14 0x11#8).set j 0#8) 0 = 0x00#8 ∧
      byteAt (([0#8, 2#8] ++ List.replicate 14 0x11#8).set j 0#8) 1 = 0x02#8 ∧ 2 ≤ j ∧ j < 16 ∧
      byteAt (([0#8, 2#8] ++ List.replicate 14 0x11#8).set j 0#8) j = 0x00#8 ∧
      ∀ i < 16, 2 ≤ i → i < j → byteAt (([0#8, 2#8] ++ List.replicate 14 0x11#8).set j 0#8) i ≠ 0x00#8 := by
    decide
  obtain ⟨h0, h1, h2, h3, h4, h5⟩ := this j hj
  exact ⟨h0, h1, h2, h3, h4, fun i hi hij => h5 i (by omega) hi hij⟩

theorem witness_EncryptComputesTheCiphertext : ∃ s t : State, s.WF ∧ s.KeyInv ∧ s.keyValid = true ∧ t.WF ∧
    t.KeyInv ∧ t.keyValid = false :=
  ⟨keyed, s0, keyed_wf, keyed_inv, rfl, s0_wf, s0_inv, rfl⟩

theorem witness_DecryptComputesTheBlock : ∃ s t u : State, s.WF ∧ s.KeyInv ∧ s.keyValid = true ∧
    s.ctLen.toNat ≠ s.B ∧ t.WF ∧ t.KeyInv ∧ t.keyValid = true ∧ t.ctLen.toNat = t.B ∧ u.WF ∧ u.KeyInv ∧
    u.keyValid = false :=
  ⟨{ keyed with ctLen := 15#32 }, { keyed with ctLen := 16#32 }, s0, by constructor <;> decide +kernel,
    ⟨by decide +kernel, by decide +kernel⟩, rfl, by decide, by constructor <;> decide +kernel,
    ⟨by decide +kernel, by decide +kernel⟩, rfl, by decide, s0_wf, s0_inv, rfl⟩

/-- The ciphertext of V4.1, for which the bit is 1. -/
def accepted : State :=
  { keyed.setVal .ct 0x003705f4031c285d6b50c2f9a29cfead with ctLen := 16#32 }

theorem witness_CheckpadReportsOneBit : ∃ s : State, s.WF ∧ s.KeyInv ∧ oracleBit s = true :=
  ⟨accepted, by constructor <;> decide +kernel, ⟨by decide +kernel, by decide +kernel⟩, by decide +kernel⟩

theorem witness_EveryCommandCompletesPrecisely : ∃ (i : Instr) (s t : State), exec i s = .next t ∧ t.err ≠ .none :=
  ⟨.decrypt, s0, _, exec_after _ _, by decide +kernel⟩

/-- Two states that agree on what MODINV reads and on nothing else that matters. -/
theorem witness_CommandsUseOnlyTheirOperands : ∃ s s' t t' : State, SameReads .modinv s s' ∧ s ≠ s' ∧
    exec .modinv s = .next t ∧ exec .modinv s' = .next t' ∧ t.err = .none :=
  ⟨operands 3 0 11, operands 3 99 11, _, _, ⟨rfl, rfl, rfl⟩, by decide +kernel, exec_after _ _, exec_after _ _,
    by decide +kernel⟩

theorem witness_CommandsUseOnlyTheirOperands_error : ∃ s t : State, exec .decrypt s = .next t ∧ t.err ≠ .none :=
  ⟨s0, _, exec_after _ _, by decide +kernel⟩

theorem witness_StatusBitsMoveOnlyByTheirRule_keyValid : ∃ s t : State, step s = .next t ∧
    (∀ lost es, s.host.pending ≠ .reset lost :: es) ∧ t.keyValid ≠ s.keyValid :=
  ⟨issue 3#32 s0, after .keygen (issue 3#32 s0), rfl, (by intro _ _ h; cases h), by decide +kernel⟩

theorem witness_StatusBitsMoveOnlyByTheirRule_oracle : ∃ s t : State, step s = .next t ∧
    (∀ lost es, s.host.pending ≠ .reset lost :: es) ∧ t.oracle ≠ s.oracle :=
  ⟨issue 8#32 accepted, after .checkpad (issue 8#32 accepted), rfl, (by intro _ _ h; cases h), by decide +kernel⟩

theorem witness_StatusBitsMoveOnlyByTheirRule_wrap : ∃ s t : State, step s = .next t ∧
    (∀ lost es, s.host.pending ≠ .reset lost :: es) ∧ t.wrap ≠ s.wrap :=
  ⟨issue 6#32 { keyed with blk := List.replicate 16 0xFF#8 },
    after .encrypt (issue 6#32 { keyed with blk := List.replicate 16 0xFF#8 }), rfl,
    (by intro _ _ h; cases h), by decide +kernel⟩

/-- A write to KP and a KEYGEN after the key is installed, and a reset after them. -/
theorem witness_KeyIsImmutableUntilReset : ∃ (n : Nat) (s t : State), s.keyValid = true ∧
    (∀ e ∈ s.host.pending.take n, e.isReset = false) ∧ RunsTo n s t ∧ n = 3 ∧ s.host.pending.length = 4 :=
  ⟨3, withPending keyed [.access (writeAt 0x800C 5#32), .access (writeAt 0x0000 3#32), .engine, .reset []], _, rfl, by decide,
    rfl, rfl, rfl⟩

theorem witness_KeygenGivesAnInversePair : ∃ s t : State, s.WF ∧ exec .keygen s = .next t ∧ t.err = .none ∧
    1 < t.kphi :=
  ⟨inputs 61 53 17, _, inputs_wf _ _ _, exec_after _ _, by decide +kernel, by decide +kernel⟩

/-- Two states with different private keys, and a command that does not use them. -/
theorem witness_PrivateKeyShowsOnlyInItsCommands : ∃ s t s' : State, SameButSecrets s t ∧ s ≠ t ∧
    (∀ es, EngineTurn s es → s.busy = true →
      decode s.curCmd ≠ .ok .keygen ∧ decode s.curCmd ≠ .ok .decrypt ∧ decode s.curCmd ≠ .ok .checkpad) ∧
    step s = .next s' :=
  ⟨busyWith .encrypt [.engine], { busyWith .encrypt [.engine] with kd := 1 }, _, rfl, by decide +kernel,
    fun _ _ _ => ⟨nofun, nofun, nofun⟩, rfl⟩

theorem witness_CodecRoundTripRestoresTheMessage : ∃ s t : State, s.WF ∧ s.msgLen.toNat ≤ s.B - 3 ∧ t.WF ∧
    t.msgLen.toNat = t.B - 3 :=
  ⟨message, { message with msgLen := 13#32 }, message_wf, by decide, by constructor <;> decide +kernel, by decide⟩

/-- Textbook key, block 65. -/
def small : State :=
  textbook.setVal .blk 65

theorem small_wf : small.WF := by constructor <;> decide +kernel
theorem small_inv : small.KeyInv := ⟨by decide +kernel, by decide +kernel⟩

theorem witness_CipherRoundTripExactlyWhen : ∃ s : State, s.WF ∧ s.KeyInv ∧ s.keyValid = true ∧
    s.val .blk < s.val .kn :=
  ⟨small, small_wf, small_inv, rfl, by decide +kernel⟩

theorem witness_CipherRoundTripForDistinctPrimes : ∃ s : State, s.WF ∧ s.KeyInv ∧ s.keyValid = true ∧
    s.val .blk < s.val .kn ∧ Nat.Prime (s.val .kp) ∧ Nat.Prime (s.val .kq) ∧ s.val .kp ≠ s.val .kq := by
  have hp : small.val .kp = 61 := by decide +kernel
  have hq : small.val .kq = 53 := by decide +kernel
  refine ⟨small, small_wf, small_inv, rfl, by decide +kernel, ?_⟩
  rw [hp, hq]
  norm_num

theorem witness_OracleAcceptsEncryptedPadding : ∃ s : State, s.WF ∧ s.KeyInv ∧ s.keyValid = true ∧
    s.val .blk < s.val .kn ∧ s.val .blk ^ (s.val .ke * s.kd) % s.val .kn = s.val .blk ∧
    byteAt s.blk 0 = 0x00#8 ∧ byteAt s.blk 1 = 0x02#8 := by
  refine ⟨{ keyed with blk := blk0 }, by constructor <;> decide +kernel, ⟨by decide +kernel, by decide +kernel⟩, rfl,
    by decide +kernel, ?_, rfl, rfl⟩
  rw [← modExp_eq]
  decide +kernel

/-- A build of B = 4 with e = 1, so that decryption is the identity on [0, n), n = 443 * 449 >= 3 * 256^2. -/
def identityKey : State :=
  after .keygen (State.resetOf { blockBytes := 4, keyP0 := 443, keyQ0 := 449, keyE0 := 1, base := 0 })

theorem witness_OracleAcceptsExactlyItsShare : ∃ s : State, s.WF ∧ s.KeyInv ∧ s.keyValid = true ∧
    s.ctLen.toNat = s.B ∧ 3 * 256 ^ (s.B - 2) ≤ s.val .kn ∧
    ∀ c c', c < s.val .kn → c' < s.val .kn → c ^ s.kd % s.val .kn = c' ^ s.kd % s.val .kn → c = c' := by
  have hd : identityKey.kd = 1 := by decide +kernel
  refine ⟨{ identityKey with ctLen := 4#32 }, by constructor <;> decide +kernel,
    ⟨by decide +kernel, by decide +kernel⟩, by decide +kernel, by decide +kernel, by decide +kernel, ?_⟩
  show ∀ c c', c < identityKey.val .kn → c' < identityKey.val .kn →
    c ^ identityKey.kd % identityKey.val .kn = c' ^ identityKey.kd % identityKey.val .kn → c = c'
  intro c c' hc hc' h
  rwa [hd, pow_one, pow_one, Nat.mod_eq_of_lt hc, Nat.mod_eq_of_lt hc'] at h

theorem witness_SmallModulusAlwaysWraps : ∃ s : State, s.WF ∧ s.KeyInv ∧ s.keyValid = true ∧
    s.val .kn ≤ 2 * 256 ^ (s.B - 2) ∧ byteAt s.blk 0 = 0x00#8 ∧ byteAt s.blk 1 = 0x02#8 :=
  ⟨{ textbook with blk := blk0 }, by constructor <;> decide +kernel, ⟨by decide +kernel, by decide +kernel⟩, rfl,
    by decide +kernel, rfl, rfl⟩

theorem witness_InContractRunNeverStops : ∃ s : State, s.build.wf = true ∧ InContract s ∧ s.host.pending ≠ [] :=
  ⟨twoAccesses, by decide +kernel, by unfold InContract; decide +kernel, by decide⟩

theorem witness_InContractRunEnds : ∃ s : State, s.build.wf = true ∧ InContract s ∧ s.busy = true :=
  ⟨busyWith .decrypt [.poll 0 [1, 0], .access (readOf 0x40000004 4)], by decide +kernel, by unfold InContract; decide +kernel, rfl⟩

/-- A run that is over while host 1's access and a reset are pending, and the step after it. -/
theorem witness_RunOverStaysUntilAnotherIssue : ∃ s t : State, RunOver 0 s ∧ s.host.pending.length = 2 ∧
    step s = .next t :=
  ⟨withPending keyed [.access { writeAt 0x6000 1#32 with host := 1 }, .reset []], _, ⟨by decide, rfl⟩, rfl, rfl⟩

/-- The same where host 1 issues a command. -/
theorem witness_RunOverStaysUntilAnotherIssue_issue : ∃ s t : State, RunOver 0 s ∧ step s = .next t ∧ t.busy = true :=
  ⟨withPending keyed [.access { writeAt 0 1#32 with host := 1 }], _, ⟨by decide, rfl⟩, rfl, by decide +kernel⟩

theorem witness_RunOverStaysUntilAnotherIssue_not : (busyWith .encrypt []).busy = true ∧
    ∃ e ∈ (withPending keyed [.access (writeAt 0 1#32)]).host.pending, e.ofHost 0 = true :=
  ⟨rfl, .access (writeAt 0 1#32), by decide, rfl⟩

theorem witness_LdiLineLoadsTheInteger : ∃ (h : Nat) (s : State) (x : BigReg) (v : Nat), s.WF ∧ s.busy = false ∧
    hostWritable s x = true ∧ v < 256 ^ s.B ∧ s.host.pending = lineEvents h s.build (.ldi x v) :=
  ⟨0, withPending s0 (lineEvents 0 b16 (.ldi .kp 61)), .kp, 61, s0_wf.withPending _, rfl, rfl, by decide +kernel, rfl⟩

/-- No data, data longer than the register, and data up to the end of the region. -/
theorem witness_LdbLineStoresTheBytes : ∀ n ∈ [0, 17, 0x1000], ∃ (h : Nat) (s : State) (x : BigReg) (data : List Byte), s.WF ∧
    s.busy = false ∧ hostWritable s x = true ∧ data.length = n ∧ data.length ≤ 0x1000 ∧
    s.host.pending = lineEvents h s.build (.ldb x data) := by
  have bound : ∀ n ∈ [0, 17, 0x1000], n ≤ 0x1000 := by decide
  intro n hn
  exact ⟨0, withPending s0 (lineEvents 0 b16 (.ldb .msg (List.replicate n 1#8))), .msg, List.replicate n 1#8,
    s0_wf.withPending _, rfl, rfl, List.length_replicate, by rw [List.length_replicate]; exact bound n hn, rfl⟩

theorem witness_PollReadsUntilIdle_idle : ∃ (s : State) (h : Nat) (gaps : List Nat) (es : List Event),
    s.build.wf = true ∧ s.host.pending = .poll h gaps :: es ∧ s.busy = false :=
  ⟨withPending keyed [.poll 0 [1], .engine], 0, [1], [.engine], by decide +kernel, rfl, rfl⟩

theorem witness_PollReadsUntilIdle_busy : ∀ gaps ∈ [[], [0], [5]], ∃ (s : State) (es : List Event),
    s.build.wf = true ∧ s.host.pending = .poll 0 gaps :: es ∧ s.busy = true := by
  intro gaps _
  exact ⟨busyWith .encrypt [.poll 0 gaps, .engine], [.engine], by show b16.wf = true; decide +kernel, rfl, rfl⟩

theorem witness_RunLineCompletesTheCommand : ∃ (h : Nat) (s : State) (i : Instr) (k : Nat), s.build.wf = true ∧
    s.busy = false ∧ s.host.pending = lineEvents h s.build (.run i k) :=
  ⟨0, withPending keyed (lineEvents 0 b16 (.run .encrypt 1)), .encrypt, 1, by decide +kernel, rfl, rfl⟩

end Sys2Proof.Tests
end

section
/-! Proofs of the scope family (spec 00_scope.md): the well-formedness every step keeps, runs that never stop, the
launch state, and illegal configurations. -/

namespace Sys2Proof.Machine

/-! ### Well-formedness -/

theorem State.WF.commit {s : State} (h : s.WF) (i : Instr) : (commit (Machine.commandBody i s) s).WF := by
  rcases commit_cases (Machine.commandBody i s) s with ⟨t, ht, e⟩ | ⟨c, -, e⟩ <;> rw [e]
  · exact (h.commandBody ht).finish .none
  · exact h.finish c

theorem State.WF.engineMove {s t : State} (h : s.WF) (hm : engineMove s = .next t) : t.WF := by
  rcases engineMove_cases s with ⟨-, e⟩ | ⟨-, i, -, e⟩ | ⟨-, d, -, e⟩ <;> rw [e] at hm <;> cases hm
  · exact h
  · exact h.commit i
  · exact h.finish .illegal

theorem State.WF.hostAccess {s t : State} (h : s.WF) {a : Access} (ha : hostAccess a s = .next t) : t.WF := by
  rcases hostAccess_cases a s with ⟨-, e⟩ | ⟨-, -, e⟩ | ⟨-, -, -, e⟩ | ⟨-, -, v, -, e⟩ <;> rw [e] at ha <;> cases ha
  · exact h
  · exact h.reply _ _
  · exact h.memWrite _ _

theorem State.WF.pollRound {s : State} (h : s.WF) (host : Nat) (gaps : List Nat) : (pollRound host gaps s).WF :=
  (h.withPending _).reply _ _

/-- Each agent's move keeps the state well-formed, so every step does. -/
theorem State.WF.step {s t : State} (h : s.WF) (hs : step s = .next t) : t.WF := by
  rcases step_cases s with ⟨-, e⟩ | ⟨-, -, e⟩ | ⟨-, es, -, e⟩ | ⟨-, a, es, -, e⟩ | ⟨-, l, es, -, e⟩ |
    ⟨-, host, gaps, es, -, e⟩ <;> rw [e] at hs
  · cases hs
  · exact h.engineMove hs
  · exact (h.withPending es).engineMove hs
  · exact (h.withPending es).hostAccess hs
  · cases hs
    exact State.WF.resetBlock h.build
  · cases hs
    exact (h.withPending es).pollRound host gaps

/-- Settles O4, by the agent whose move the step is. -/
theorem stepKeepsTheStateWellFormed : Obligations.StepKeepsTheStateWellFormed :=
  fun _ _ h hs => h.step hs

/-! ### Runs within the contract -/

/-- The ENGINE's turn always answers a next state (spec R14). -/
theorem engineMove_next (s : State) : ∃ t, engineMove s = .next t := by
  rcases engineMove_cases s with ⟨-, e⟩ | ⟨-, i, -, e⟩ | ⟨-, d, -, e⟩ <;> exact ⟨_, e⟩

theorem engineMove_host {s t : State} (h : engineMove s = .next t) : t.host = s.host := by
  rcases engineMove_cases s with ⟨-, e⟩ | ⟨-, i, -, e⟩ | ⟨-, d, -, e⟩ <;> rw [e] at h <;> cases h
  · rfl
  · rcases commit_cases (commandBody i s) s with ⟨t, ht, e⟩ | ⟨c, -, e⟩ <;> rw [e]
    · obtain ⟨-, -, -, -, -, -, -, -, hhost, -⟩ := commandBody_frame ht
      exact hhost
    · rfl
  · rfl

/-- Only an access outside the contract of R72 is refused. -/
theorem hostAccess_next {a : Access} {s : State} (h : (Event.access a).inContract s.build = true) :
    ∃ t, hostAccess a s = .next t := by
  rcases hostAccess_cases a s with ⟨-, e⟩ | ⟨hr, hw, -⟩ | ⟨-, -, -, e⟩ | ⟨-, -, v, -, e⟩
  · exact ⟨_, e⟩
  · simp [Event.inContract, hr, hw] at h
  · exact ⟨_, e⟩
  · exact ⟨_, e⟩

theorem hostAccess_pending {a : Access} {s t : State} (h : hostAccess a s = .next t) :
    t.host.pending = s.host.pending := by
  rcases hostAccess_cases a s with ⟨-, e⟩ | ⟨-, -, e⟩ | ⟨-, -, -, e⟩ | ⟨-, -, v, -, e⟩ <;> rw [e] at h <;> cases h
  · rfl
  · rfl
  · obtain ⟨-, hhost, -⟩ := memWrite_frame s (a.offset s.build) v
    rw [hhost]

theorem mem_pending_pollRound {h : Nat} {gaps : List Nat} {s : State} {e : Event}
    (he : e ∈ (pollRound h gaps s).host.pending) : e ∈ s.host.pending ∨ e = .engine ∨ ∃ gs, e = .poll h gs := by
  rw [pollRound_eq] at he
  cases hb : s.busy with
  | true =>
    rw [hb] at he
    exact mem_pollAgain he
  | false =>
    rw [hb] at he
    exact .inl he

/-- A step brings in no event but the ENGINE's turn and further reads of a POLL loop. -/
theorem mem_pending_of_step {s t : State} {e : Event} (hs : step s = .next t) (he : e ∈ t.host.pending) :
    e ∈ s.host.pending ∨ e = .engine ∨ ∃ h gs, e = .poll h gs := by
  rcases step_cases s with ⟨-, hm⟩ | ⟨-, -, hm⟩ | ⟨-, es, hp, hm⟩ | ⟨-, a, es, hp, hm⟩ | ⟨-, l, es, hp, hm⟩ |
    ⟨-, h, gaps, es, hp, hm⟩ <;> rw [hm] at hs
  · cases hs
  · rw [engineMove_host hs] at he
    exact .inl he
  · rw [engineMove_host hs] at he
    exact .inl (hp ▸ List.mem_cons_of_mem _ he)
  · rw [hostAccess_pending hs] at he
    exact .inl (hp ▸ List.mem_cons_of_mem _ he)
  · cases hs
    exact .inl (hp ▸ List.mem_cons_of_mem _ he)
  · cases hs
    rcases mem_pending_pollRound he with he | he | ⟨gs, he⟩
    · exact .inl (hp ▸ List.mem_cons_of_mem _ he)
    · exact .inr (.inl he)
    · exact .inr (.inr ⟨h, gs, he⟩)

theorem step_keeps_inContract {s t : State} (hc : InContract s) (hs : step s = .next t) : InContract t := by
  intro e he
  rw [step_build hs]
  rcases mem_pending_of_step hs he with he | rfl | ⟨h, gs, rfl⟩
  · exact hc e he
  · rfl
  · rfl

/-- The two refusals are the only stops, and a legal configuration within the contract meets neither. -/
theorem step_next_of_inContract {s : State} (hw : s.build.wf = true) (hc : InContract s) : ∃ t, step s = .next t := by
  rcases step_cases s with ⟨hf, -⟩ | ⟨-, -, e⟩ | ⟨-, es, -, e⟩ | ⟨-, a, es, hp, e⟩ | ⟨-, l, es, -, e⟩ |
    ⟨-, h, gaps, es, -, e⟩
  · simp [hw] at hf
  · exact e ▸ engineMove_next s
  · exact e ▸ engineMove_next (withPending s es)
  · have ha : (Event.access a).inContract s.build = true := hc _ (hp ▸ List.mem_cons_self)
    exact e ▸ hostAccess_next (s := withPending s es) ha
  · exact ⟨_, e⟩
  · exact ⟨_, e⟩

/-- Settles O51, by induction on the number of steps: each step is taken and keeps the configuration and the
contract. -/
theorem inContractRunNeverStops : Obligations.InContractRunNeverStops := by
  intro s hw hc n
  induction n generalizing s with
  | zero => exact ⟨s, (runsTo_zero s s).2 rfl⟩
  | succ n ih =>
    obtain ⟨u, hu⟩ := step_next_of_inContract hw hc
    obtain ⟨t, ht⟩ := ih u (step_build hu ▸ hw) (step_keeps_inContract hc hu)
    exact ⟨t, (runsTo_succ n s t).2 ⟨u, hu, ht⟩⟩

/-! ### The launch state and illegal configurations -/

theorem hardware_wf : Build.hardware.wf = true := by
  decide

section
variable {b : Build} (hb : b.wf = true)
include hb

theorem val_kp_resetOf : (State.resetOf b).val .kp = b.keyP0 := by
  obtain ⟨-, -, -, hp, -, -⟩ := build_facts hb
  exact beNat_toBE_of_lt hp

theorem val_kq_resetOf : (State.resetOf b).val .kq = b.keyQ0 := by
  obtain ⟨-, -, -, -, hq, -⟩ := build_facts hb
  exact beNat_toBE_of_lt hq

theorem val_ke_resetOf : (State.resetOf b).val .ke = b.keyE0 := by
  obtain ⟨-, -, -, -, -, he⟩ := build_facts hb
  exact beNat_toBE_of_lt he

end

theorem val_kn_resetOf (b : Build) : (State.resetOf b).val .kn = 0 :=
  (beNat_toBE b.blockBytes 0).trans (Nat.zero_mod _)

theorem statusWord_resetOf (b : Build) : statusWord (State.resetOf b) = 0#32 := by
  simp [statusWord, State.resetOf, Err.code]

/-- Settles O1: the hardware's key inputs fit in B bytes, so reset leaves exactly them (R49). -/
theorem launchStateHoldsTheBuiltInKey : Obligations.LaunchStateHoldsTheBuiltInKey :=
  ⟨rfl, val_kp_resetOf hardware_wf, val_kq_resetOf hardware_wf, val_ke_resetOf hardware_wf, val_kn_resetOf _,
    rfl, rfl, statusWord_resetOf _, rfl⟩

/-- Settles O29: a configuration that passes `Build.wf` keeps every limit of R6, so one that breaks a limit fails it. -/
theorem illegalConfigurationIsRefused : Obligations.IllegalConfigurationIsRefused := by
  intro s hbad
  have hw : ¬ s.build.wf = true := fun hw => hbad (build_facts hw)
  rw [step, if_neg hw]

end Sys2Proof.Machine
end

section
/-! Proofs of the state family (spec 10_state.md): the key invariant, the secret key's noninterference, reset, STATUS
and CFG, what moves the status bits, and the length registers. -/

namespace Sys2Proof.Machine

/-! ### A legal step's turn, and what a command writes -/

theorem build_wf_of_step {s t : State} (h : step s = .next t) : s.build.wf = true := by
  by_contra hw
  rw [step, if_neg hw] at h
  cases h

theorem step_of_pending_nil {s : State} (hw : s.build.wf = true) (hp : s.host.pending = []) :
    step s = engineMove s := by
  rw [step, if_pos hw, move, hp]

theorem step_of_pending_cons {s : State} {e : Event} {es : List Event} (hw : s.build.wf = true)
    (hp : s.host.pending = e :: es) : step s = perform e (withPending s es) := by
  rw [step, if_pos hw, move, hp]

theorem engineMove_of_decode_ok {s : State} {i : Instr} (hb : s.busy = true) (hi : decode s.curCmd = .ok i) :
    engineMove s = .next (commit (commandBody i s) s) := by
  rw [engineMove, if_pos hb, complete, fetch, hi]
  exact exec_eq_commit i s

theorem engineMove_of_decode_error {s : State} {d : DecodeError} (hb : s.busy = true)
    (hd : decode s.curCmd = .error d) : engineMove s = .next (finish .illegal s) := by
  rw [engineMove, if_pos hb, complete, fetch, hd]
  rfl

theorem withPending_pending (s : State) : withPending s s.host.pending = s := rfl

/-- A command that succeeds stages writes to its destinations only (spec 30_encoding.md R104). -/
theorem commandBody_writesOnlyIts {s t : State} {i : Instr} (hb : commandBody i s = .ok t) : WritesOnlyIts i s t := by
  cases i with
  | modexp =>
    rcases modexpBody_cases s with ⟨-, he⟩ | ⟨-, he⟩ <;> simp only [commandBody, he] at hb <;> cases hb
    rfl
  | modinv =>
    rcases modinvBody_cases s with ⟨-, he⟩ | ⟨-, -, he⟩ | ⟨-, -, d, -, -, he⟩ <;>
      simp only [commandBody, he] at hb <;> cases hb
    rfl
  | keygen =>
    rcases keygenBody_cases s with ⟨-, he⟩ | ⟨-, c, -, he⟩ | ⟨-, k, -, he⟩ <;>
      simp only [commandBody, he] at hb <;> cases hb
    rfl
  | encodeMsg =>
    rcases encodeBody_cases s with ⟨-, he⟩ | ⟨-, he⟩ <;> simp only [commandBody, he] at hb <;> cases hb
    rfl
  | decodeBlk =>
    rcases decodeBody_cases s with ⟨-, he⟩ | ⟨m, -, he⟩ <;> simp only [commandBody, he] at hb <;> cases hb
    rfl
  | encrypt =>
    rcases encryptBody_cases s with ⟨-, he⟩ | ⟨-, he⟩ <;> simp only [commandBody, he] at hb <;> cases hb
    rfl
  | decrypt =>
    rcases decryptBody_cases s with ⟨-, he⟩ | ⟨-, -, he⟩ | ⟨-, -, he⟩ <;>
      simp only [commandBody, he] at hb <;> cases hb
    rfl
  | checkpad =>
    cases hb
    rfl

/-! ### The key invariant -/

/-- The registers `State.KeyInv` speaks of: KP, KQ, KE, KN, KPHI, KD and KEY_VALID. -/
def State.keyRegs (s : State) : Buf × Buf × Buf × Buf × Nat × Nat × Bool :=
  (s.kp, s.kq, s.ke, s.kn, s.kphi, s.kd, s.keyValid)

theorem keyRegs_eq_iff (s t : State) : t.keyRegs = s.keyRegs ↔
    t.kp = s.kp ∧ t.kq = s.kq ∧ t.ke = s.ke ∧ t.kn = s.kn ∧ t.kphi = s.kphi ∧ t.kd = s.kd ∧
      t.keyValid = s.keyValid := by
  simp only [State.keyRegs, Prod.mk.injEq]

theorem State.KeyInv.of_keyRegs_eq {s t : State} (h : s.KeyInv) (he : t.keyRegs = s.keyRegs) : t.KeyInv := by
  obtain ⟨hkp, hkq, hke, hkn, hkphi, hkd, hkv⟩ := (keyRegs_eq_iff s t).1 he
  constructor
  · simpa only [hkp, hkq, hke, hkn, hkphi, hkd, hkv] using h.present
  · simpa only [hkn, hkphi, hkd, hkv] using h.absent

/-- No command but KEYGEN writes a key register. -/
theorem commandBody_keyRegs {s t : State} {i : Instr} (hb : commandBody i s = .ok t) (hi : i ≠ .keygen) :
    t.keyRegs = s.keyRegs := by
  have hw := commandBody_writesOnlyIts hb
  cases i with
  | keygen => exact absurd rfl hi
  | modexp | modinv | encodeMsg | decodeBlk | encrypt | decrypt | checkpad =>
    rw [WritesOnlyIts] at hw
    rw [hw]
    rfl

/-- With a key the host can write no key register (R78; KN always, R77). -/
theorem memWrite_keyRegs {s : State} (hk : s.keyValid = true) (off : Nat) (v : Word) :
    (memWrite s off v).keyRegs = s.keyRegs := by
  rcases memWrite_cases s off v with e | ⟨-, -, e⟩ | ⟨-, -, e⟩ | ⟨-, -, e⟩ | ⟨-, x, -, hw, -, e⟩ <;> rw [e]
  · rfl
  · rfl
  · rfl
  · cases x with
    | kp | kq | ke => simp [hostWritable, hk] at hw
    | res | kn => cases hw
    | opa | opb | opm | msg | blk | ct => rfl

/-- What KEYGEN installs meets the invariant: n is below 256^B, so KN holds all of it, and phi and d are those of
`keyDerive_ok`. -/
theorem keyInv_installKey {s : State} {k : KeyTriple}
    (hk : keyDerive s.B (s.val .kp) (s.val .kq) (s.val .ke) = .ok k) : (installKey s k).KeyInv := by
  obtain ⟨hp, hq, hlt, hn, hphi, hgcd, hd, hinv⟩ := keyDerive_ok hk
  have hkn : beNat (toBE s.B k.n) = s.val .kp * s.val .kq := by rw [hn, beNat_toBE_of_lt hlt]
  constructor
  · intro _
    exact ⟨hp, hq, hkn, hphi, hgcd, hd, hinv⟩
  · intro h
    cases h

theorem State.KeyInv.commandBody {s t : State} (h : s.KeyInv) {i : Instr} (hb : commandBody i s = .ok t) :
    t.KeyInv := by
  by_cases hi : i = .keygen
  · subst hi
    rcases keygenBody_cases s with ⟨-, he⟩ | ⟨-, c, -, he⟩ | ⟨-, k, hk, he⟩ <;>
      simp only [Machine.commandBody, he] at hb <;> cases hb
    exact keyInv_installKey hk
  · exact h.of_keyRegs_eq (commandBody_keyRegs hb hi)

theorem State.KeyInv.engineMove {s t : State} (h : s.KeyInv) (hm : engineMove s = .next t) : t.KeyInv := by
  rcases engineMove_cases s with ⟨-, e⟩ | ⟨-, i, -, e⟩ | ⟨-, d, -, e⟩ <;> rw [e] at hm <;> cases hm
  · exact h
  · rcases commit_cases (Machine.commandBody i s) s with ⟨u, hu, e⟩ | ⟨c, -, e⟩ <;> rw [e]
    · exact (h.commandBody hu).of_keyRegs_eq rfl
    · exact h.of_keyRegs_eq rfl
  · exact h.of_keyRegs_eq rfl

/-- A write keeps the invariant: with a key the key registers are locked, and without one it says nothing of those that
a host can write. -/
theorem State.KeyInv.memWrite {s : State} (h : s.KeyInv) (off : Nat) (v : Word) : (memWrite s off v).KeyInv := by
  cases hk : s.keyValid with
  | true => exact h.of_keyRegs_eq (memWrite_keyRegs hk off v)
  | false =>
    obtain ⟨-, -, -, -, hkn, hkphi, hkd, hkv, -, -⟩ := memWrite_frame s off v
    constructor
    · intro hv
      rw [hkv, hk] at hv
      cases hv
    · intro _
      rw [hkn, hkphi, hkd]
      exact h.absent hk

theorem State.KeyInv.hostAccess {s t : State} (h : s.KeyInv) {a : Access} (ha : hostAccess a s = .next t) :
    t.KeyInv := by
  rcases hostAccess_cases a s with ⟨-, e⟩ | ⟨-, -, e⟩ | ⟨-, -, -, e⟩ | ⟨-, -, v, -, e⟩ <;> rw [e] at ha <;> cases ha
  · exact h
  · exact h.of_keyRegs_eq rfl
  · exact h.memWrite _ _

/-- Reset leaves no key, and KN, KPHI and KD are 0 (R49). -/
theorem keyInv_resetBlock (s : State) : (resetBlock s).KeyInv where
  present h := nomatch h
  absent _ := ⟨val_kn_resetOf s.build, rfl, rfl⟩

/-- Each agent's move keeps the key invariant, so every step does. -/
theorem State.KeyInv.step {s t : State} (h : s.KeyInv) (hs : step s = .next t) : t.KeyInv := by
  have hpend : ∀ es, (withPending s es).KeyInv := fun _ => h.of_keyRegs_eq rfl
  rcases step_cases s with ⟨-, e⟩ | ⟨-, -, e⟩ | ⟨-, es, -, e⟩ | ⟨-, a, es, -, e⟩ | ⟨-, l, es, -, e⟩ |
    ⟨-, host, gaps, es, -, e⟩ <;> rw [e] at hs
  · cases hs
  · exact h.engineMove hs
  · exact (hpend es).engineMove hs
  · exact (hpend es).hostAccess hs
  · cases hs
    exact keyInv_resetBlock _
  · cases hs
    exact h.of_keyRegs_eq rfl

/-- Settles O5, by the agent whose move the step is. -/
theorem stepKeepsTheKeyInvariant : Obligations.StepKeepsTheKeyInvariant :=
  fun _ _ _ h hs => h.step hs

theorem resetBlock_resetOf (b : Build) : resetBlock (State.resetOf b) = State.resetOf b := rfl

/-- Settles O2: the launch state is a reset state of a legal build. -/
theorem launchStateMeetsTheInvariants : Obligations.LaunchStateMeetsTheInvariants := by
  unfold Obligations.LaunchStateMeetsTheInvariants
  rw [State.reset, ← resetBlock_resetOf]
  exact ⟨State.WF.resetBlock hardware_wf, keyInv_resetBlock _⟩

/-! ### The secrets: two states that differ only there step alike -/

/-- The key {d, p, q} of R144, and phi, which hosts may not learn (R48): KP, KQ, KPHI and KD. -/
structure Secrets where
  kp   : Buf
  kq   : Buf
  kphi : Nat
  kd   : Nat

/-- The state with other secrets. -/
def State.withSecrets (s : State) (k : Secrets) : State :=
  { s with kp := k.kp, kq := k.kq, kphi := k.kphi, kd := k.kd }

theorem sameButSecrets_iff (s t : State) : SameButSecrets s t ↔ ∃ k, t = s.withSecrets k := by
  constructor
  · intro h
    exact ⟨⟨t.kp, t.kq, t.kphi, t.kd⟩, h⟩
  · rintro ⟨k, rfl⟩
    rfl

section
variable (s : State) (k : Secrets)

@[simp] theorem withSecrets_build : (s.withSecrets k).build = s.build := rfl
@[simp] theorem withSecrets_B : (s.withSecrets k).B = s.B := rfl
@[simp] theorem withSecrets_msgLen : (s.withSecrets k).msgLen = s.msgLen := rfl
@[simp] theorem withSecrets_blk : (s.withSecrets k).blk = s.blk := rfl
@[simp] theorem val_opa_withSecrets : (s.withSecrets k).val .opa = s.val .opa := rfl
@[simp] theorem val_opm_withSecrets : (s.withSecrets k).val .opm = s.val .opm := rfl
@[simp] theorem withSecrets_keyValid : (s.withSecrets k).keyValid = s.keyValid := rfl
@[simp] theorem withSecrets_busy : (s.withSecrets k).busy = s.busy := rfl
@[simp] theorem withSecrets_ctLen : (s.withSecrets k).ctLen = s.ctLen := rfl
@[simp] theorem statusWord_withSecrets : statusWord (s.withSecrets k) = statusWord s := rfl
@[simp] theorem cfgWord_withSecrets : cfgWord (s.withSecrets k) = cfgWord s := rfl

@[simp] theorem hostWritable_withSecrets (x : BigReg) : hostWritable (s.withSecrets k) x = hostWritable s x := by
  cases x <;> rfl

/-- A host cannot read KP and KQ (R77, R81), and no other region holds a secret. -/
@[simp] theorem readRegion_withSecrets (x : BigReg) (i : Nat) :
    readRegion (s.withSecrets k) x i = readRegion s x i := by
  cases x <;> rfl

/-- No read shows the secrets (R48). -/
@[simp] theorem memRead_withSecrets (off : Nat) : memRead (s.withSecrets k) off = memRead s off := by
  simp only [memRead, statusWord_withSecrets, withSecrets_msgLen, withSecrets_ctLen, cfgWord_withSecrets,
    readRegion_withSecrets]

/-- A change of one register leaves two states alike outside the secrets, and changes a secret if the register
is KP or KQ. -/
theorem setBuf_withSecrets (x : BigReg) (f : Buf → Buf) :
    ∃ k', (s.withSecrets k).setBuf x (f ((s.withSecrets k).buf x)) = (s.setBuf x (f (s.buf x))).withSecrets k' := by
  cases x with
  | kp => exact ⟨{ k with kp := f k.kp }, rfl⟩
  | kq => exact ⟨{ k with kq := f k.kq }, rfl⟩
  | opa | opb | opm | res | msg | blk | ct | ke | kn => exact ⟨k, rfl⟩

theorem writeRegion_withSecrets (x : BigReg) (i : Nat) (v : Word) :
    ∃ k', writeRegion (s.withSecrets k) x i v = (writeRegion s x i v).withSecrets k' := by
  rw [writeRegion, writeRegion, hostWritable_withSecrets, withSecrets_B]
  split_ifs
  · exact setBuf_withSecrets s k x (putWord · i v)
  · exact ⟨k, rfl⟩

theorem memWrite_withSecrets (off : Nat) (v : Word) :
    ∃ k', memWrite (s.withSecrets k) off v = (memWrite s off v).withSecrets k' := by
  rw [memWrite, memWrite, withSecrets_busy]
  split_ifs with hbusy h0 h8 hc
  · exact ⟨k, rfl⟩
  · exact ⟨k, rfl⟩
  · exact ⟨k, rfl⟩
  · exact ⟨k, rfl⟩
  · cases regionOf off with
    | none => exact ⟨k, rfl⟩
    | some x => exact writeRegion_withSecrets s k x _ v

theorem pollRound_withSecrets (h : Nat) (gaps : List Nat) :
    pollRound h gaps (s.withSecrets k) = (pollRound h gaps s).withSecrets k := by
  rw [pollRound_eq, pollRound_eq]
  rfl

/-- The other five commands compute nothing from the secrets (R104, R144). -/
theorem commandBody_withSecrets {i : Instr} (hg : i ≠ .keygen) (hd : i ≠ .decrypt) (hc : i ≠ .checkpad) :
    commandBody i (s.withSecrets k) = (commandBody i s).map (·.withSecrets k) := by
  cases i with
  | keygen => exact absurd rfl hg
  | decrypt => exact absurd rfl hd
  | checkpad => exact absurd rfl hc
  | modexp =>
    rw [commandBody, commandBody, modexpBody, modexpBody, val_opm_withSecrets]
    split_ifs <;> rfl
  | modinv =>
    rw [commandBody, commandBody, modinvBody, modinvBody, val_opm_withSecrets, val_opa_withSecrets]
    split_ifs
    · rfl
    · cases modInv (s.val .opa) (s.val .opm) <;> rfl
  | encodeMsg =>
    rw [commandBody, commandBody, encodeBody, encodeBody, withSecrets_msgLen, withSecrets_B]
    split_ifs <;> rfl
  | decodeBlk =>
    simp only [commandBody, decodeBody, withSecrets_blk]
    cases padDecode s.blk <;> rfl
  | encrypt =>
    rw [commandBody, commandBody, encryptBody, encryptBody, withSecrets_keyValid]
    split_ifs <;> rfl

theorem commit_withSecrets (r : Except Err State) :
    commit (r.map (·.withSecrets k)) (s.withSecrets k) = (commit r s).withSecrets k := by
  cases r <;> rfl

end

/-- The ENGINE's turn tells two states apart by their secrets only where the command is KEYGEN, DECRYPT or CHECKPAD. -/
theorem engineMove_withSecrets {s s' : State} (k : Secrets)
    (hcmd : s.busy = true →
      decode s.curCmd ≠ .ok .keygen ∧ decode s.curCmd ≠ .ok .decrypt ∧ decode s.curCmd ≠ .ok .checkpad)
    (h : engineMove s = .next s') : engineMove (s.withSecrets k) = .next (s'.withSecrets k) := by
  rcases engineMove_cases s with ⟨hb, e⟩ | ⟨hb, i, hi, e⟩ | ⟨hb, d, hd, e⟩ <;> rw [e] at h <;> cases h
  · rw [engineMove, if_neg (by simp [hb])]
  · obtain ⟨hg, hd, hc⟩ := hcmd hb
    rw [hi] at hg hd hc
    have hbody := commandBody_withSecrets s k (mt (congrArg _) hg) (mt (congrArg _) hd) (mt (congrArg _) hc)
    rw [engineMove_of_decode_ok (s := s.withSecrets k) hb hi, hbody, commit_withSecrets]
  · rw [engineMove_of_decode_error (s := s.withSecrets k) hb hd]
    rfl

/-- Whatever access it is, the hosts see the same, and the states after it are again alike outside the secrets. -/
theorem hostAccess_withSecrets {s s' : State} (k : Secrets) {a : Access} (h : hostAccess a s = .next s') :
    ∃ k', hostAccess a (s.withSecrets k) = .next (s'.withSecrets k') := by
  rw [hostAccess] at h ⊢
  rw [withSecrets_build]
  split_ifs at h ⊢
  · cases hop : a.op with
    | read =>
      rw [hop] at h
      cases h
      rw [memRead_withSecrets]
      exact ⟨k, rfl⟩
    | write v =>
      rw [hop] at h
      cases h
      obtain ⟨k', hk'⟩ := memWrite_withSecrets s k (a.offset s.build) v
      exact ⟨k', congrArg _ hk'⟩
  · cases h
    exact ⟨k, rfl⟩

/-- Settles O44, by the agent whose move the step is: both states have the same agent to move. -/
theorem privateKeyShowsOnlyInItsCommands : Obligations.PrivateKeyShowsOnlyInItsCommands := by
  intro s t s' hst hcmd hs
  obtain ⟨k, rfl⟩ := (sameButSecrets_iff s t).1 hst
  suffices h : ∃ k', step (s.withSecrets k) = .next (s'.withSecrets k') by
    obtain ⟨k', hk'⟩ := h
    exact ⟨_, hk', (sameButSecrets_iff s' _).2 ⟨k', rfl⟩⟩
  have hw := build_wf_of_step hs
  cases hp : s.host.pending with
  | nil =>
    rw [step_of_pending_nil hw hp] at hs
    rw [step_of_pending_nil (s := s.withSecrets k) hw hp]
    exact ⟨k, engineMove_withSecrets k (hcmd [] (.inr ⟨hp, rfl⟩)) hs⟩
  | cons e es =>
    rw [step_of_pending_cons hw hp] at hs
    rw [step_of_pending_cons (s := s.withSecrets k) hw hp]
    cases e with
    | access a => exact hostAccess_withSecrets k hs
    | engine => exact ⟨k, engineMove_withSecrets (s := withPending s es) k (hcmd es (.inl hp)) hs⟩
    | reset lost =>
      cases hs
      exact ⟨⟨_, _, _, _⟩, rfl⟩
    | poll h gaps =>
      cases hs
      exact ⟨k, congrArg _ (pollRound_withSecrets (withPending s es) k h gaps)⟩

/-! ### STATUS and CFG as a host reads them, and reset -/

theorem memRead_status (s : State) : memRead s 0x0004 = statusWord s := rfl

theorem memRead_cfg (s : State) : memRead s 0x0010 = cfgWord s := rfl

/-- The codes R200 says are never produced: 8 to 14. -/
theorem err_code_le_seven_or_fifteen (e : Err) : e.code.toNat ≤ 7 ∨ e.code.toNat = 15 := by
  cases e <;> decide

theorem extractLsb'_statusWord_err (s : State) : (statusWord s).extractLsb' 4 4 = s.err.code := by
  apply BitVec.eq_of_getLsbD_eq
  intro i hi
  rw [BitVec.getLsbD_extractLsb', getLsbD_statusWord, if_neg (by omega), if_neg (by omega), if_neg (by omega),
    if_pos (by omega), Nat.add_sub_cancel_left]
  simp [hi]

/-- The reserved fields of STATUS, bits 3:2 and 31:11 (R43). -/
theorem extractLsb'_statusWord_reserved (s : State) {start len : Nat}
    (h : 2 ≤ start ∧ start + len ≤ 4 ∨ 11 ≤ start) : (statusWord s).extractLsb' start len = 0#len := by
  apply BitVec.eq_of_getLsbD_eq
  intro i hi
  rw [BitVec.getLsbD_extractLsb', getLsbD_statusWord, BitVec.getLsbD_zero]
  rcases h with ⟨hlo, hhi⟩ | hlo
  · rw [if_neg (by omega), if_neg (by omega), if_pos (by omega), Bool.and_false]
  · rw [if_neg (by omega), if_neg (by omega), if_neg (by omega), if_neg (by omega), if_neg (by omega),
      if_neg (by omega), if_neg (by omega), Bool.and_false]

/-- Settles O15: each field from the bits of STATUS, and the last two clauses from the well-formedness of the state. -/
theorem statusReadShowsTheFields : Obligations.StatusReadShowsTheFields := by
  refine ⟨⟨rfl, rfl, rfl, rfl, rfl, rfl, rfl, rfl, rfl⟩, ?_, ?_⟩
  · intro e
    have := err_code_le_seven_or_fifteen e
    omega
  · intro s hs
    have hbusy : (statusWord s).getLsbD 0 = s.busy := getLsbD_statusWord s 0
    have hdone : (statusWord s).getLsbD 1 = s.done := getLsbD_statusWord s 1
    have herr := extractLsb'_statusWord_err s
    rw [memRead_status]
    refine ⟨hbusy, hdone, extractLsb'_statusWord_reserved s (by omega), herr, getLsbD_statusWord s 8,
      getLsbD_statusWord s 9, getLsbD_statusWord s 10, extractLsb'_statusWord_reserved s (by omega), ?_, ?_⟩
    · rw [hbusy, hdone]
      exact hs.notBusyAndDone
    · rw [hbusy, herr]
      intro hb
      rw [hs.noErrWhileBusy hb]
      rfl

/-- B is at most 4096, so the 16 bits of CFG hold all of it (R44, R6). -/
theorem cfgWord_eq {s : State} (hw : s.build.wf = true) : cfgWord s = BitVec.ofNat 32 s.B := by
  obtain ⟨-, -, hB, -, -, -⟩ := build_facts hw
  apply BitVec.eq_of_toNat_eq
  simp only [cfgWord, State.B, BitVec.toNat_setWidth, BitVec.toNat_ofNat]
  omega

theorem memWrite_cfg (s : State) (v : Word) : memWrite s 0x0010 v = s := by
  have hr : regionOf 0x0010 = none := regionOf_none (by omega)
  simp [memWrite, hr]

/-- Settles O16: CFG is a function of the build, which no step changes. -/
theorem cfgHoldsTheBlockSize : Obligations.CfgHoldsTheBlockSize := by
  intro s hs
  obtain ⟨-, -, hB, -, -, -⟩ := build_facts hs.build
  have hcfg := cfgWord_eq hs.build
  rw [memRead_cfg, hcfg]
  refine ⟨rfl, ?_, ?_, memWrite_cfg s, ?_⟩
  · simp only [State.B, BitVec.extractLsb'_toNat, BitVec.toNat_ofNat, Nat.shiftRight_zero]
    omega
  · apply BitVec.eq_of_toNat_eq
    simp only [State.B, BitVec.extractLsb'_toNat, BitVec.toNat_ofNat, Nat.shiftRight_eq_div_pow]
    omega
  · intro t ht
    have hbuild := step_build ht
    rw [memRead_cfg, cfgWord_eq (hbuild ▸ hs.build), State.B, hbuild]

theorem step_of_reset {s : State} {lost : List Access} {es : List Event} (hw : s.build.wf = true)
    (hp : s.host.pending = .reset lost :: es) : step s = .next (resetBlock (withPending s es)) :=
  step_of_pending_cons hw hp

theorem statusWord_resetBlock (s : State) : statusWord (resetBlock s) = 0#32 :=
  statusWord_resetOf s.build

/-- Every register but the key inputs is 0 after reset (R49). -/
theorem buf_resetBlock (s : State) {x : BigReg} (hp : x ≠ .kp) (hq : x ≠ .kq) (he : x ≠ .ke) :
    (resetBlock s).buf x = List.replicate s.B 0#8 := by
  rw [← toBE_zero]
  cases x with
  | kp => exact absurd rfl hp
  | kq => exact absurd rfl hq
  | ke => exact absurd rfl he
  | opa | opb | opm | res | msg | blk | ct | kn => rfl

/-- Settles O3: the step is `resetBlock`, whatever accesses are delivered with it. -/
theorem resetStepRestoresEveryRegister : Obligations.ResetStepRestoresEveryRegister := by
  intro s lost es hw hp _
  have hwf : (resetBlock (withPending s es)).WF := State.WF.resetBlock hw
  exact ⟨_, step_of_reset hw hp, rfl, rfl, rfl, length_buf hwf, fun _ => buf_resetBlock _,
    val_kp_resetOf hw, val_kq_resetOf hw, val_ke_resetOf hw,
    rfl, rfl, rfl, rfl, rfl, rfl, rfl, rfl, rfl, rfl, statusWord_resetBlock _, rfl, cfgWord_eq hwf.build⟩

/-! ### What moves KEY_VALID, ORACLE and WRAP -/

/-- The step from `s` to `t` completes the command `i` without an error, its pseudocode having run with the events
`es` left. -/
def Completes (i : Instr) (es : List Event) (s t : State) : Prop :=
  s.busy = true ∧ decode s.curCmd = .ok i ∧ ∃ u, commandBody i (withPending s es) = .ok u ∧ t = finish .none u

/-- The bits of STATUS that outlast a command. -/
def State.stickyBits (s : State) : Bool × Bool × Bool :=
  (s.keyValid, s.oracle, s.wrap)

theorem engineMove_stickyBits {s t : State} {es : List Event} (h : engineMove (withPending s es) = .next t) :
    t.stickyBits = s.stickyBits ∨ ∃ i, Completes i es s t := by
  rcases engineMove_cases (withPending s es) with ⟨-, e⟩ | ⟨hb, i, hi, e⟩ | ⟨-, d, -, e⟩ <;> rw [e] at h <;> cases h
  · exact .inl rfl
  · rcases commit_cases (commandBody i (withPending s es)) (withPending s es) with ⟨u, hu, e⟩ | ⟨c, -, e⟩ <;> rw [e]
    · exact .inr ⟨i, hb, hi, u, hu, rfl⟩
    · exact .inl rfl
  · exact .inl rfl

theorem hostAccess_stickyBits {s t : State} {a : Access} (h : hostAccess a s = .next t) :
    t.stickyBits = s.stickyBits := by
  rcases hostAccess_cases a s with ⟨-, e⟩ | ⟨-, -, e⟩ | ⟨-, -, -, e⟩ | ⟨-, -, v, -, e⟩ <;> rw [e] at h <;> cases h
  · rfl
  · rfl
  · obtain ⟨-, -, -, -, -, -, -, hkv, horacle, hwrap⟩ := memWrite_frame s (a.offset s.build) v
    simp only [State.stickyBits, hkv, horacle, hwrap]

/-- A step that is not a reset leaves the three bits alone, or completes a command without an error. -/
theorem step_stickyBits {s t : State} (hs : step s = .next t) (hr : ∀ lost es, s.host.pending ≠ .reset lost :: es) :
    t.stickyBits = s.stickyBits ∨ ∃ i es, Completes i es s t := by
  rcases step_cases s with ⟨-, e⟩ | ⟨-, hp, e⟩ | ⟨-, es, -, e⟩ | ⟨-, a, es, -, e⟩ | ⟨-, l, es, hp, -⟩ |
    ⟨-, host, gaps, es, -, e⟩
  · rw [e] at hs
    cases hs
  · rw [e, ← withPending_pending s] at hs
    exact (engineMove_stickyBits hs).imp id fun ⟨i, hi⟩ => ⟨i, _, hi⟩
  · rw [e] at hs
    exact (engineMove_stickyBits hs).imp id fun ⟨i, hi⟩ => ⟨i, es, hi⟩
  · rw [e] at hs
    exact .inl (hostAccess_stickyBits (s := withPending s es) hs)
  · exact absurd hp (hr l es)
  · rw [e] at hs
    cases hs
    exact .inl rfl

/-- KEYGEN ends without an error only where it has set KEY_VALID (R141). -/
theorem keyValid_of_keygenBody {s t : State} (hb : keygenBody s = .ok t) : t.keyValid = true := by
  rcases keygenBody_cases s with ⟨-, he⟩ | ⟨-, c, -, he⟩ | ⟨-, k, -, he⟩ <;> rw [he] at hb <;> cases hb
  rfl

theorem commandBody_oracle {s t : State} {i : Instr} (hb : commandBody i s = .ok t) (hi : i ≠ .checkpad) :
    t.oracle = s.oracle := by
  have hw := commandBody_writesOnlyIts hb
  cases i with
  | checkpad => exact absurd rfl hi
  | modexp | modinv | keygen | encodeMsg | decodeBlk | encrypt | decrypt =>
    rw [WritesOnlyIts] at hw
    rw [hw]

theorem commandBody_wrap {s t : State} {i : Instr} (hb : commandBody i s = .ok t) (he : i ≠ .encrypt)
    (hd : i ≠ .decrypt) : t.wrap = s.wrap := by
  have hw := commandBody_writesOnlyIts hb
  cases i with
  | encrypt => exact absurd rfl he
  | decrypt => exact absurd rfl hd
  | modexp | modinv | keygen | encodeMsg | decodeBlk | checkpad =>
    rw [WritesOnlyIts] at hw
    rw [hw]

/-- Settles O41: a bit that moved was moved by a command's completion, and only its own command writes it. -/
theorem statusBitsMoveOnlyByTheirRule : Obligations.StatusBitsMoveOnlyByTheirRule := by
  intro s t hs hr
  rcases step_stickyBits hs hr with heq | ⟨i, es, hbusy, hdec, u, hu, rfl⟩
  · simp only [State.stickyBits, Prod.mk.injEq] at heq
    obtain ⟨hkv, horacle, hwrap⟩ := heq
    exact ⟨fun hne => absurd hkv hne, fun hne => absurd horacle hne, fun hne => absurd hwrap hne⟩
  · refine ⟨fun hne => ?_, fun hne => ?_, fun hne => ?_⟩
    · have hkeygen : i = .keygen := by
        by_contra hi
        obtain ⟨-, -, -, -, -, -, hkv⟩ := (keyRegs_eq_iff _ _).1 (commandBody_keyRegs hu hi)
        exact hne hkv
      subst hkeygen
      have hkv : u.keyValid = true := keyValid_of_keygenBody hu
      exact ⟨hbusy, hdec, rfl, rfl, hkv⟩
    · have hcheckpad : i = .checkpad := by
        by_contra hi
        have horacle : u.oracle = (withPending s es).oracle := commandBody_oracle hu hi
        exact hne horacle
      exact ⟨hbusy, hcheckpad ▸ hdec, rfl⟩
    · have hcipher : i = .encrypt ∨ i = .decrypt := by
        by_contra hi
        obtain ⟨he, hd⟩ := not_or.1 hi
        have hwrap : u.wrap = (withPending s es).wrap := commandBody_wrap hu he hd
        exact hne hwrap
      rcases hcipher with rfl | rfl
      · exact ⟨hbusy, .inl hdec, rfl, rfl⟩
      · exact ⟨hbusy, .inr hdec, rfl, rfl⟩

/-! ### The length registers -/

theorem memWrite_msgLen {s : State} (hb : s.busy = false) (v : Word) :
    memWrite s 0x0008 v = { s with msgLen := v } := by
  simp [memWrite, hb]

theorem memWrite_ctLen {s : State} (hb : s.busy = false) (v : Word) :
    memWrite s 0x000C v = { s with ctLen := v } := by
  simp [memWrite, hb]

/-- Settles O19: a write to either register on an idle block stores the word there, where the read finds it. -/
theorem lengthRegistersKeepWhatIsWritten : Obligations.LengthRegistersKeepWhatIsWritten := by
  intro s v hb
  rw [memWrite_msgLen hb, memWrite_ctLen hb]
  exact ⟨rfl, rfl, rfl, rfl⟩

end Sys2Proof.Machine
end

section
/-! Proofs of the memory family (spec 20_memory.md): what the offsets of the window read and store, the turn of a host
access, and the block while BUSY = 1. -/

namespace Sys2Proof.Machine

/-! ### Offsets that ignore writes or read 0 -/

theorem memWrite_region_ignored {s : State} {x : BigReg} {i : Nat} (hi : i < 0x1000)
    (h : hostWritable s x = false ∨ s.B ≤ i) (v : Word) : memWrite s (regionBase x + i) v = s := by
  cases hb : s.busy with
  | true => exact memWrite_busy hb _ v
  | false =>
    rw [memWrite_region hb x hi, writeRegion, if_neg]
    rcases h with h | h
    · simp [h]
    · simp [Nat.not_lt.2 h]

theorem memRead_region_zero {s : State} {x : BigReg} {i : Nat} (hi : i < 0x1000)
    (h : hostReadable x = false ∨ s.B ≤ i) : memRead s (regionBase x + i) = 0#32 := by
  rw [memRead_region s x hi, readRegion, if_neg]
  rcases h with h | h
  · simp [h]
  · simp [Nat.not_lt.2 h]

/-- Settles O20: past B a region is neither read nor stored. -/
theorem wordsPastTheRegisterAreInert : Obligations.WordsPastTheRegisterAreInert := by
  intro s x i v _ hi hB
  exact ⟨memRead_region_zero hi (.inr hB), memWrite_region_ignored hi (.inr hB) v⟩

/-- Only CMD, the two lengths and the regions can take a write (R81). -/
theorem memWrite_unmapped {s : State} {off : Nat} (h0 : off ≠ 0x0000) (h8 : off ≠ 0x0008) (hc : off ≠ 0x000C)
    (hr : regionOf off = none) (v : Word) : memWrite s off v = s := by
  rcases memWrite_cases s off v with e | ⟨-, h, -⟩ | ⟨-, h, -⟩ | ⟨-, h, -⟩ | ⟨-, x, h, -, -, -⟩
  · exact e
  · exact absurd h h0
  · exact absurd h h8
  · exact absurd h hc
  · simp [hr] at h

theorem memRead_unmapped {s : State} {off : Nat} (h : 0x0014 ≤ off) (hr : regionOf off = none) :
    memRead s off = 0#32 := by
  rw [memRead, if_neg (by omega), if_neg (by omega), if_neg (by omega), if_neg (by omega), if_neg (by omega), hr]

/-- Settles O21: neither range holds a register or meets a region. -/
theorem unmappedOffsetsAreInert : Obligations.UnmappedOffsetsAreInert := by
  intro s off v h
  have hr : regionOf off = none := regionOf_none (by omega)
  exact ⟨memRead_unmapped (by omega) hr, memWrite_unmapped (by omega) (by omega) (by omega) hr v⟩

theorem memWrite_status (s : State) (v : Word) : memWrite s 0x0004 v = s :=
  memWrite_unmapped (by decide) (by decide) (by decide) (regionOf_none (by decide)) v

/-- Settles O22: RES and KN are never writable, KP and KQ never readable, and there is no fault to answer. -/
theorem wrongDirectionAccessesAreInert : Obligations.WrongDirectionAccessesAreInert := by
  refine ⟨?_, ?_, ?_⟩
  · intro s v
    exact ⟨memWrite_status s v, memWrite_cfg s v, rfl⟩
  · intro s v i hi
    exact ⟨memWrite_region_ignored hi (.inl rfl) v, memWrite_region_ignored hi (.inl rfl) v,
      memRead_region_zero hi (.inl rfl), memRead_region_zero hi (.inl rfl)⟩
  · intro s f
    cases f

theorem hostWritable_locked {s : State} (hk : s.keyValid = true) :
    hostWritable s .kp = false ∧ hostWritable s .kq = false ∧ hostWritable s .ke = false := by
  simp [hostWritable, hk]

/-- Settles O23: with a key, the three key inputs are not writable. -/
theorem lockedKeyIgnoresWrites : Obligations.LockedKeyIgnoresWrites := by
  intro s v i hk hi
  obtain ⟨hkp, hkq, hke⟩ := hostWritable_locked hk
  exact ⟨memWrite_region_ignored hi (.inl hkp) v, memWrite_region_ignored hi (.inl hkq) v,
    memWrite_region_ignored hi (.inl hke) v⟩

/-! ### The registers a read depends on -/

/-- A read of an offset sees STATUS, the two lengths, the build and the bytes of the offset's own region (R81). -/
theorem memRead_congr {s t : State} {off : Nat} (hbuild : t.build = s.build)
    (hstatus : off = 0x0004 → statusWord t = statusWord s) (hmsgLen : t.msgLen = s.msgLen)
    (hctLen : t.ctLen = s.ctLen) (hbuf : ∀ x, regionOf off = some x → t.buf x = s.buf x) :
    memRead t off = memRead s off := by
  have hB : t.B = s.B := congrArg Build.blockBytes hbuild
  rw [memRead, memRead]
  split_ifs with _ h4
  · rfl
  · exact hstatus h4
  · exact hmsgLen
  · exact hctLen
  · rw [cfgWord, cfgWord, hB]
  · cases hr : regionOf off with
    | none => rfl
    | some x => simp only [readRegion, hB, hbuf x hr]

/-- What hosts have read, and what is still to happen, no read sees. -/
theorem memRead_setHost (s : State) (e : HostSide) (off : Nat) : memRead { s with host := e } off = memRead s off :=
  memRead_congr rfl (fun _ => rfl) rfl rfl fun x _ => by cases x <;> rfl

theorem memRead_withPending (s : State) (es : List Event) (off : Nat) :
    memRead (withPending s es) off = memRead s off :=
  memRead_setHost s _ off

theorem memRead_issue (s : State) (v : Word) {off : Nat} (h : off ≠ 0x0004) :
    memRead (issue v s) off = memRead s off :=
  memRead_congr rfl (fun h4 => absurd h4 h) rfl rfl fun x _ => buf_issue s v x

theorem statusWord_setBuf (s : State) (x : BigReg) (b : Buf) : statusWord (s.setBuf x b) = statusWord s := by
  cases x <;> rfl

theorem memRead_setBuf_of_regionOf_ne (s : State) {x : BigReg} (b : Buf) {off : Nat} (h : regionOf off ≠ some x) :
    memRead (s.setBuf x b) off = memRead s off := by
  refine memRead_congr (setBuf_build s x b) (fun _ => statusWord_setBuf s x b) (setBuf_msgLen s x b)
    (setBuf_ctLen s x b) fun y hy => ?_
  have hne : x ≠ y := by
    rintro rfl
    exact h hy
  exact buf_setBuf_of_ne s hne b

/-! ### The words of a region -/

theorem regionOf_eq_some {off : Nat} {x : BigReg} (h : regionOf off = some x) :
    ∃ i < 0x1000, off = regionBase x + i := by
  refine ⟨off % 0x1000, Nat.mod_lt _ (by decide), ?_⟩
  unfold regionOf at h
  split at h <;> cases h <;> simp only [regionBase] <;> omega

theorem memRead_region_word (s : State) {x : BigReg} {i : Nat} (hr : hostReadable x = true) (hi : i < 0x1000)
    (hB : i < s.B) : memRead s (regionBase x + i) = wordAt (s.buf x) i := by
  rw [memRead_region s x hi, readRegion, if_pos (by simp [hr, hB])]

theorem memWrite_region_word {s : State} {x : BigReg} {i : Nat} (hb : s.busy = false)
    (hw : hostWritable s x = true) (hi : i < 0x1000) (hB : i < s.B) (v : Word) :
    memWrite s (regionBase x + i) v = s.setBuf x (putWord (s.buf x) i v) := by
  rw [memWrite_region hb x hi, writeRegion, if_pos (by simp [hw, hB])]

/-- A register holds whole words, and no more than its region (R6, R71). -/
theorem word_in_register {s : State} (h : s.WF) (x : BigReg) {k : Nat} (hk : 4 * k < s.B) :
    4 * k < 0x1000 ∧ 4 * k + 3 < (s.buf x).length := by
  obtain ⟨hmod, -, hmax, -, -, -⟩ := build_facts h.build
  rw [length_buf h x]
  simp only [State.B] at *
  omega

/-- Settles O17: a read packs the four bytes and a write unpacks them, at the word's own place. -/
theorem regionWordsAreBigEndian : Obligations.RegionWordsAreBigEndian := by
  intro s x k v hs hk
  obtain ⟨hi, hlen⟩ := word_in_register hs x hk
  constructor
  · intro hr
    rw [memRead_region_word s hr hi hk]
    exact wordByte_packWord _ _ _ _
  · intro hb hw
    refine ⟨putWord (s.buf x) (4 * k) v, memWrite_region_word hb hw hi hk v, ?_, ?_, ?_, ?_, ?_, ?_⟩
    · rw [length_putWord, length_buf hs x]
    · rw [byteAt_putWord _ _ _ v hlen, if_pos (by omega), Nat.sub_self]
      rfl
    · rw [byteAt_putWord _ _ _ v hlen, if_pos (by omega), Nat.add_sub_cancel_left]
      rfl
    · rw [byteAt_putWord _ _ _ v hlen, if_pos (by omega), Nat.add_sub_cancel_left]
      rfl
    · rw [byteAt_putWord _ _ _ v hlen, if_pos (by omega), Nat.add_sub_cancel_left]
      rfl
    · intro j hj
      rw [byteAt_putWord _ _ _ v hlen, if_neg (by omega)]

/-- Settles O18: an offset of another region does not see the write, and an aligned one of the same region is another
word. -/
theorem writtenWordIsReadBack : Obligations.WrittenWordIsReadBack := by
  intro s x k v hs hk hb hw
  obtain ⟨hi, hlen⟩ := word_in_register hs x hk
  rw [memWrite_region_word hb hw hi hk]
  constructor
  · intro hr
    rw [memRead_region_word _ hr hi (by simpa using hk), buf_setBuf_self, wordAt_putWord_self _ _ v hlen]
  · intro off halign hne
    by_cases hreg : regionOf off = some x
    · obtain ⟨j, hj, rfl⟩ := regionOf_eq_some hreg
      have hbase : regionBase x % 4 = 0 := by cases x <;> rfl
      rw [memRead_region _ x hj, memRead_region _ x hj, readRegion, readRegion, setBuf_B, buf_setBuf_self,
        wordAt_putWord_of_disjoint _ _ j v hlen (by omega)]
    · exact memRead_setBuf_of_regionOf_ne s _ hreg

/-! ### The turn of a host access -/

theorem routed_iff (b : Build) (a : Access) : a.routed b = true ↔ b.base ≤ a.addr ∧ a.addr < b.base + 0x10000 := by
  simp [Access.routed]

theorem access_wf_iff (b : Build) (a : Access) : a.wf b = true ↔ a.bytes = 4 ∧ a.offset b % 4 = 0 := by
  simp [Access.wf]

theorem step_of_access {s : State} {a : Access} {es : List Event} (hw : s.build.wf = true)
    (hp : s.host.pending = .access a :: es) : step s = hostAccess a (withPending s es) :=
  step_of_pending_cons hw hp

theorem step_of_read {s : State} {a : Access} {es : List Event} (hw : s.build.wf = true) (ht : AccessTurn s a es)
    (hop : a.op = .read) :
    step s = .next (reply a.addr (memRead s (a.offset s.build)) (withPending s es)) := by
  obtain ⟨hp, hr, hwf⟩ := ht
  rw [step_of_access hw hp, hostAccess, withPending_build, if_pos hr, if_pos hwf, hop, ← memRead_withPending s es]

theorem step_of_write {s : State} {a : Access} {es : List Event} {v : Word} (hw : s.build.wf = true)
    (ht : AccessTurn s a es) (hop : a.op = .write v) :
    step s = .next (memWrite (withPending s es) (a.offset s.build) v) := by
  obtain ⟨hp, hr, hwf⟩ := ht
  rw [step_of_access hw hp, hostAccess, withPending_build, if_pos hr, if_pos hwf, hop]

/-- Settles O24: the access is performed as a write, and a write while busy is dropped. -/
theorem busyBlockIgnoresWrites : Obligations.BusyBlockIgnoresWrites := by
  intro s a es v hw ht hop hb
  rw [step_of_write hw ht hop, memWrite_busy (s := withPending s es) hb]

/-- Settles O28: in the window, the contract decides between a refusal and a next state. -/
theorem accessOutsideTheContractIsRefused : Obligations.AccessOutsideTheContractIsRefused := by
  intro s a es hw hp hr
  rw [step_of_access hw hp]
  constructor
  · intro hbad
    have hwf : ¬ a.wf s.build = true := by
      rw [access_wf_iff]
      tauto
    rw [hostAccess, withPending_build, if_pos hr, if_neg hwf]
  · intro hgood
    have hc : (Event.access a).inContract s.build = true := by
      simp [Event.inContract, (access_wf_iff s.build a).2 hgood]
    exact hostAccess_next (s := withPending s es) hc

/-- Settles O30: an access that is not routed to the block is let pass. -/
theorem otherAddressesAreNotServed : Obligations.OtherAddressesAreNotServed := by
  intro s a es hw hp hout
  rw [← routed_iff] at hout
  rw [step_of_access hw hp, hostAccess, withPending_build, if_neg hout]

/-! ### Idempotence -/

theorem putWord_putWord (x : Buf) (i : Nat) (v : Word) : putWord (putWord x i v) i v = putWord x i v := by
  apply List.ext_getElem?
  intro j
  simp only [putWord, List.getElem?_set, List.length_set]
  split_ifs <;> rfl

@[simp] theorem hostWritable_setBuf (s : State) (x y : BigReg) (b : Buf) :
    hostWritable (s.setBuf x b) y = hostWritable s y := by
  cases y <;> simp [hostWritable]

/-- All but a CMD write while idle is a plain store (R82): of nothing, of a length, or of one word of a register. -/
theorem memWrite_stores {s : State} {off : Nat} (h : off ≠ 0x0000 ∨ s.busy = true) (v : Word) :
    memWrite s off v = s ∨ (s.busy = false ∧ off = 0x0008 ∧ memWrite s off v = { s with msgLen := v }) ∨
      (s.busy = false ∧ off = 0x000C ∧ memWrite s off v = { s with ctLen := v }) ∨
      (s.busy = false ∧ ∃ x i, i < 0x1000 ∧ off = regionBase x + i ∧ hostWritable s x = true ∧ i < s.B ∧
        memWrite s off v = s.setBuf x (putWord (s.buf x) i v)) := by
  rcases memWrite_cases s off v with e | ⟨hb, h0, -⟩ | hlen | hlen | ⟨hb, x, hr, hw, hB, e⟩
  · exact .inl e
  · simp [h0, hb] at h
  · exact .inr (.inl hlen)
  · exact .inr (.inr (.inl hlen))
  · obtain ⟨i, hi, rfl⟩ := regionOf_eq_some hr
    rw [Nat.add_sub_cancel_left] at hB e
    exact .inr (.inr (.inr ⟨hb, x, i, hi, rfl, hw, hB, e⟩))

theorem memWrite_memWrite {s : State} {off : Nat} (h : off ≠ 0x0000 ∨ s.busy = true) (v : Word) :
    memWrite (memWrite s off v) off v = memWrite s off v := by
  rcases memWrite_stores h v with e | ⟨hb, rfl, e⟩ | ⟨hb, rfl, e⟩ | ⟨hb, x, i, hi, rfl, hw, hB, e⟩
  · rw [e, e]
  · rw [e, memWrite_msgLen (s := { s with msgLen := v }) hb]
  · rw [e, memWrite_ctLen (s := { s with ctLen := v }) hb]
  · rw [e, memWrite_region_word (by simpa using hb) (by simpa using hw) hi (by simpa using hB), buf_setBuf_self,
      putWord_putWord, setBuf_setBuf]

/-- Settles O14: the two accesses as steps, and every write but the issuing one as a plain store. -/
theorem accessesHaveNoSideEffect : Obligations.AccessesHaveNoSideEffect := by
  refine ⟨fun s a es hw ht hop => step_of_read hw ht hop, fun s a es v hw ht hop => step_of_write hw ht hop, ?_⟩
  intro s off v h
  refine ⟨?_, memWrite_memWrite h v⟩
  rcases memWrite_stores h v with e | ⟨-, -, e⟩ | ⟨-, -, e⟩ | ⟨-, x, i, -, hoff, -, -, e⟩
  · exact .inl e
  · exact .inr (.inl e)
  · exact .inr (.inr (.inl e))
  · exact .inr (.inr (.inr ⟨x, i, hoff, e⟩))

/-! ### The block while BUSY = 1 -/

theorem hostAccess_busy {s t : State} {a : Access} (hb : s.busy = true) (h : hostAccess a s = .next t) :
    t = { s with host := t.host } := by
  rcases hostAccess_cases a s with ⟨-, e⟩ | ⟨-, -, e⟩ | ⟨-, -, -, e⟩ | ⟨-, -, v, -, e⟩ <;> rw [e] at h <;> cases h
  · rfl
  · rfl
  · rw [memWrite_busy hb]

theorem step_access_busy {s t : State} {a : Access} {es : List Event} (hb : s.busy = true)
    (hp : s.host.pending = .access a :: es) (hs : step s = .next t) :
    t = { s with host := t.host } ∧ t.host.pending = es := by
  rw [step_of_access (build_wf_of_step hs) hp] at hs
  exact ⟨hostAccess_busy (s := withPending s es) hb hs, hostAccess_pending hs⟩

/-- Settles O26, by induction on the number of accesses: each leaves the block, and with it BUSY, as it was. -/
theorem busyBlockKeepsItsOperands : Obligations.BusyBlockKeepsItsOperands := by
  intro s t n hb hn hacc hrun
  induction n generalizing s with
  | zero =>
    rw [runsTo_zero] at hrun
    subst hrun
    exact ⟨rfl, rfl⟩
  | succ n ih =>
    obtain ⟨u, hstep, hrun⟩ := (runsTo_succ n s t).1 hrun
    cases hp : s.host.pending with
    | nil => simp [hp] at hn
    | cons e es =>
      rw [hp, List.length_cons] at hn
      rw [hp, List.take_succ_cons, List.forall_mem_cons] at hacc
      obtain ⟨he, hacc⟩ := hacc
      cases e with
      | engine | reset _ | poll _ _ => cases he
      | access a =>
        obtain ⟨hu, hes⟩ := step_access_busy hb hp hstep
        have hbu : u.busy = true := by rw [hu]; exact hb
        obtain ⟨ht, hrest⟩ := ih u hbu (by rw [hes]; omega) (by rwa [hes]) hrun
        rw [hu] at ht
        exact ⟨ht, by rw [hrest, hes, List.drop_succ_cons]⟩

/-- Settles O25: the block stays as the issue left it, and the issue moves nothing a read sees but STATUS. -/
theorem busyReadsShowTheStateAtIssue : Obligations.BusyReadsShowTheStateAtIssue := by
  intro s t v n _ hn hacc hrun
  obtain ⟨ht, -⟩ := busyBlockKeepsItsOperands (issue v s) t n rfl hn hacc hrun
  rw [ht]
  refine ⟨fun off hoff => ?_, rfl, rfl, rfl, rfl, rfl, rfl, rfl⟩
  rw [memRead_setHost, memRead_issue s v hoff]

end Sys2Proof.Machine
end

section
/-! Proofs of the encoding family (spec 30_encoding.md): the command word, the ENGINE's turn, what a command reads and
writes, and the lines of host assembly. -/

namespace Sys2Proof.Machine

/-! ### The command word -/

/-- RSV and OPC are the whole word (R100). -/
theorem rsvField_append_opcField (w : Word) : rsvField w ++ opcField w = w := by
  apply BitVec.eq_of_getLsbD_eq
  intro i hi
  rw [BitVec.getLsbD_append, opcField, rsvField, BitVec.getLsbD_extractLsb', BitVec.getLsbD_extractLsb']
  split_ifs with h
  · simp [h]
  · rw [decide_eq_true (by omega : i - 8 < 24), Bool.true_and, Nat.add_sub_cancel' (by omega)]

theorem decode_encode (i : Instr) : decode (encode i) = .ok i := by
  cases i <;> rfl

/-- A word that decodes has RSV = 0, and the opcode of its command (R101, R102). -/
theorem fields_of_decode_eq_ok {w : Word} {i : Instr} (h : decode w = .ok i) :
    rsvField w = 0#24 ∧ opcField w = opcodeOf i := by
  unfold decode at h
  split_ifs at h with hrsv
  refine ⟨hrsv, BitVec.eq_of_toNat_eq ?_⟩
  split at h <;> cases h <;> assumption

theorem decode_eq_ok_iff (w : Word) (i : Instr) : decode w = .ok i ↔ w = encode i := by
  constructor
  · intro h
    obtain ⟨hrsv, hopc⟩ := fields_of_decode_eq_ok h
    rw [← rsvField_append_opcField w, hrsv, hopc, encode]
  · rintro rfl
    exact decode_encode i

/-- Settles O10: the two fields of a word that decodes are those of the command's own word. -/
theorem decodeAndEncodeAgree : Obligations.DecodeAndEncodeAgree :=
  ⟨fun i _ => decode_encode i, fun w i => (decode_eq_ok_iff w i).1⟩

theorem encode_toNat_bounds (i : Instr) : 1 ≤ (encode i).toNat ∧ (encode i).toNat ≤ 8 := by
  cases i <;> decide

theorem exists_encode_eq {w : Word} (hlo : 1 ≤ w.toNat) (hhi : w.toNat ≤ 8) : ∃ i, w = encode i := by
  have hw : w = 1#32 ∨ w = 2#32 ∨ w = 3#32 ∨ w = 4#32 ∨ w = 5#32 ∨ w = 6#32 ∨ w = 7#32 ∨ w = 8#32 := by bv_omega
  rcases hw with rfl | rfl | rfl | rfl | rfl | rfl | rfl | rfl
  exacts [⟨.modexp, rfl⟩, ⟨.modinv, rfl⟩, ⟨.keygen, rfl⟩, ⟨.encodeMsg, rfl⟩, ⟨.decodeBlk, rfl⟩, ⟨.encrypt, rfl⟩,
    ⟨.decrypt, rfl⟩, ⟨.checkpad, rfl⟩]

/-- The legal words are the words of the eight commands, 1 to 8 (R101). -/
theorem exists_decode_eq_ok_iff (w : Word) : (∃ i, decode w = .ok i) ↔ 1 ≤ w.toNat ∧ w.toNat ≤ 8 := by
  simp only [decode_eq_ok_iff]
  constructor
  · rintro ⟨i, rfl⟩
    exact encode_toNat_bounds i
  · rintro ⟨hlo, hhi⟩
    exact exists_encode_eq hlo hhi

/-- Settles O9: the map word by word, and the legal words as those of the eight commands. -/
theorem legalWordsAreOneToEight : Obligations.LegalWordsAreOneToEight :=
  ⟨decode_encode .modexp, decode_encode .modinv, decode_encode .keygen, decode_encode .encodeMsg,
    decode_encode .decodeBlk, decode_encode .encrypt, decode_encode .decrypt, decode_encode .checkpad,
    exists_decode_eq_ok_iff⟩

/-- The table's decoder reads a command's word as that command (R106). -/
theorem decodeTableWord_encode (i : Instr) : decodeTableWord 32 (encode i).toNat = some i := by
  have hmod : (encode i).toNat % 2 ^ 32 = (encode i).toNat := Nat.mod_eq_of_lt (encode i).isLt
  rw [decodeTableWord, hmod, if_pos (encode i).isLt, BitVec.ofNat_toNat, BitVec.setWidth_eq, decode_encode]
  rfl

/-- Settles O8: the eight words of the map, and one word for each reason to be illegal. -/
theorem tableWordsDecodeToTheirCommand : Obligations.TableWordsDecodeToTheirCommand :=
  ⟨decodeTableWord_encode .modexp, decodeTableWord_encode .modinv, decodeTableWord_encode .keygen,
    decodeTableWord_encode .encodeMsg, decodeTableWord_encode .decodeBlk, decodeTableWord_encode .encrypt,
    decodeTableWord_encode .decrypt, decodeTableWord_encode .checkpad, rfl, rfl, rfl⟩

/-! ### The ENGINE's turn -/

/-- The ENGINE's turn is the same move where its event is pending and where nothing is (log 7). -/
theorem step_of_engineTurn {s : State} {es : List Event} (hw : s.build.wf = true) (ht : EngineTurn s es) :
    step s = engineMove (withPending s es) := by
  rcases ht with hp | ⟨hp, rfl⟩
  · exact step_of_pending_cons hw hp
  · rw [← hp, withPending_pending]
    exact step_of_pending_nil hw hp

theorem engineMove_eq_exec {s : State} {i : Instr} (hb : s.busy = true) (hi : decode s.curCmd = .ok i) :
    engineMove s = exec i s :=
  (engineMove_of_decode_ok hb hi).trans (exec_eq_commit i s).symm

theorem engineMove_idle {s : State} (hb : s.busy = false) : engineMove s = .next s := by
  rw [engineMove, hb]
  rfl

/-- Settles O6: the ENGINE's move with a command in flight is `exec` of the decoded command. -/
theorem engineStepRunsTheDecodedCommand : Obligations.EngineStepRunsTheDecodedCommand := by
  intro s es i hw ht hb hi
  rw [step_of_engineTurn hw ht]
  exact engineMove_eq_exec (s := withPending s es) hb hi

/-- Settles O13: the ENGINE's move on an idle block is empty. -/
theorem idleBlockKeepsItsState : Obligations.IdleBlockKeepsItsState := by
  intro s es hw ht hb
  rw [step_of_engineTurn hw ht]
  exact engineMove_idle (s := withPending s es) hb

theorem withFetchWord_encode (s : State) (i : Instr) :
    s.withFetchWord 32 (encode i).toNat = placeCommand (encode i) s := by
  rw [State.withFetchWord, Nat.mod_eq_of_lt (encode i).isLt, BitVec.ofNat_toNat, BitVec.setWidth_eq]

/-- Settles O7: the placed engine event comes first, and finds the word just issued. -/
theorem placedCommandRunsNext : Obligations.PlacedCommandRunsNext := by
  intro s i hw
  have ht : EngineTurn (placeCommand (encode i) s) s.host.pending := .inl rfl
  rw [withFetchWord_encode, step_of_engineTurn (s := placeCommand (encode i) s) hw ht]
  exact engineMove_eq_exec (s := issue (encode i) s) rfl (decode_encode i)

/-- The words that are no command's (R103): a bit above the opcode, or an opcode outside the map. -/
theorem exists_decode_eq_error_iff (w : Word) :
    (∃ e, decode w = .error e) ↔ w.toNat / 256 ≠ 0 ∨ w.toNat % 256 = 0 ∨ 9 ≤ w.toNat % 256 := by
  have hlegal := exists_decode_eq_ok_iff w
  have hone : (∃ e, decode w = .error e) ↔ ¬ ∃ i, decode w = .ok i := by
    cases decode w <;> simp
  rw [hone, hlegal]
  omega

/-- Settles O11: the illegal words are all but 1 to 8, and the ENGINE's move reports one by `finish`. -/
theorem illegalWordReportsErrIllegal : Obligations.IllegalWordReportsErrIllegal := by
  refine ⟨exists_decode_eq_error_iff, rfl, ?_⟩
  intro s es e hw ht hb he
  rw [step_of_engineTurn hw ht]
  exact engineMove_of_decode_error (s := withPending s es) hb he

theorem memWrite_cmd {s : State} (hb : s.busy = false) (v : Word) : memWrite s 0x0000 v = issue v s := by
  simp [memWrite, hb]

/-- Settles O12: on an idle block the write is the issue, on a busy one it is dropped. -/
theorem commandWriteIssues : Obligations.CommandWriteIssues := by
  intro s a es v hw ht hop hoff
  refine ⟨fun hb => ?_, busyBlockIgnoresWrites s a es v hw ht hop⟩
  rw [step_of_write hw ht hop, hoff, memWrite_cmd (s := withPending s es) hb]
  rfl

/-! ### What a command reads and writes -/

theorem writesOnlyIts_finish {i : Instr} {s u : State} (h : WritesOnlyIts i s u) (c : Err) :
    WritesOnlyIts i s (finish c u) := by
  cases i with
  | modexp | modinv | keygen | encodeMsg | decodeBlk | encrypt | decrypt | checkpad =>
    rw [WritesOnlyIts] at h ⊢
    rw [h]
    rfl

/-- A command that errs writes nothing of its own, which is to write only its destinations. -/
theorem writesOnlyIts_finish_self (i : Instr) (s : State) (c : Err) : WritesOnlyIts i s (finish c s) := by
  cases i <;> rfl

/-- Code 0 is no error: what a command raises has another code (R200). -/
theorem commandBody_error_ne_none {s : State} {i : Instr} {c : Err} (hb : commandBody i s = .error c) :
    c ≠ .none := by
  cases i with
  | modexp =>
    rcases modexpBody_cases s with ⟨-, he⟩ | ⟨-, he⟩ <;> simp only [commandBody, he] at hb <;> cases hb
    decide
  | modinv =>
    rcases modinvBody_cases s with ⟨-, he⟩ | ⟨-, -, he⟩ | ⟨-, -, d, -, -, he⟩ <;>
      simp only [commandBody, he] at hb <;> cases hb <;> decide
  | keygen =>
    rcases keygenBody_cases s with ⟨-, he⟩ | ⟨-, c, hc, he⟩ | ⟨-, k, -, he⟩ <;>
      simp only [commandBody, he] at hb <;> cases hb
    · decide
    · rcases keyDerive_error hc with ⟨rfl, -⟩ | ⟨rfl, -⟩ <;> decide
  | encodeMsg =>
    rcases encodeBody_cases s with ⟨-, he⟩ | ⟨-, he⟩ <;> simp only [commandBody, he] at hb <;> cases hb
    decide
  | decodeBlk =>
    rcases decodeBody_cases s with ⟨-, he⟩ | ⟨m, -, he⟩ <;> simp only [commandBody, he] at hb <;> cases hb
    decide
  | encrypt =>
    rcases encryptBody_cases s with ⟨-, he⟩ | ⟨-, he⟩ <;> simp only [commandBody, he] at hb <;> cases hb
    decide
  | decrypt =>
    rcases decryptBody_cases s with ⟨-, he⟩ | ⟨-, -, he⟩ | ⟨-, -, he⟩ <;>
      simp only [commandBody, he] at hb <;> cases hb <;> decide
  | checkpad => cases hb

/-- Two runs of a command's pseudocode come out alike: the same error, or the same values in the destinations. -/
inductive SameAnswer (i : Instr) : Except Err State → Except Err State → Prop
  | error (c : Err) : SameAnswer i (.error c) (.error c)
  | ok {t t' : State} (h : SameWrites i t t') : SameAnswer i (.ok t) (.ok t')

section
variable {s s' : State}

theorem val_congr {x : BigReg} (h : s.buf x = s'.buf x) : s.val x = s'.val x :=
  congrArg beNat h

theorem draws_congr (h : s.rng = s'.rng) (k : Nat) : draws s k = draws s' k := by
  rw [draws, draws, h]

theorem oracleBit_congr (h : SameReads .checkpad s s') : oracleBit s = oracleBit s' := by
  obtain ⟨hbuild, hct, hctLen, hkn, hkd, hkv⟩ := h
  rw [oracleBit, oracleBit, State.B, State.B, hbuild, hctLen, hkd, hkv, val_congr (x := .ct) hct,
    val_congr (x := .kn) hkn]

/-- A command's pseudocode looks at nothing but its operands and B (R104). -/
theorem commandBody_sameAnswer {i : Instr} (h : SameReads i s s') :
    SameAnswer i (commandBody i s) (commandBody i s') := by
  obtain ⟨hbuild, h⟩ := h
  have hB : s.B = s'.B := congrArg Build.blockBytes hbuild
  cases i with
  | modexp =>
    obtain ⟨hopa, hopb, hopm⟩ := h
    rw [commandBody, commandBody, modexpBody, modexpBody, val_congr (x := .opa) hopa, val_congr (x := .opb) hopb,
      val_congr (x := .opm) hopm]
    split_ifs
    · exact .error _
    · apply SameAnswer.ok
      exact congrArg (toBE · _) hB
  | modinv =>
    obtain ⟨hopa, hopm⟩ := h
    rw [commandBody, commandBody, modinvBody, modinvBody, val_congr (x := .opa) hopa, val_congr (x := .opm) hopm]
    split_ifs
    · exact .error _
    · cases modInv (s'.val .opa) (s'.val .opm) with
      | none => exact .error _
      | some d =>
        apply SameAnswer.ok
        exact congrArg (toBE · d) hB
  | keygen =>
    obtain ⟨hkp, hkq, hke, hkv⟩ := h
    rw [commandBody, commandBody, keygenBody, keygenBody, hB, hkv, val_congr (x := .kp) hkp,
      val_congr (x := .kq) hkq, val_congr (x := .ke) hke]
    split_ifs
    · exact .error _
    · cases keyDerive s'.B (s'.val .kp) (s'.val .kq) (s'.val .ke) with
      | error c => exact .error c
      | ok k =>
        apply SameAnswer.ok
        exact ⟨congrArg (toBE · k.n) hB, rfl, rfl, rfl⟩
  | encodeMsg =>
    obtain ⟨hmsg, hmsgLen, hrng⟩ := h
    rw [commandBody, commandBody, encodeBody, encodeBody, encodeWrites, encodeWrites, hB, hmsg, hmsgLen,
      draws_congr hrng]
    split_ifs
    · exact .error _
    · apply SameAnswer.ok
      refine ⟨rfl, ?_⟩
      rw [setBuf_rng, setBuf_rng, advanceRng_rng, advanceRng_rng, hrng]
  | decodeBlk =>
    rw [commandBody, commandBody, decodeBody, decodeBody, h]
    cases padDecode s'.blk with
    | none => exact .error _
    | some m =>
      apply SameAnswer.ok
      exact ⟨congrArg (fun b => m ++ List.replicate (b - m.length) 0x00#8) hB, rfl⟩
  | encrypt =>
    obtain ⟨hblk, hkn, hke, hkv⟩ := h
    rw [commandBody, commandBody, encryptBody, encryptBody, hB, hkv, val_congr (x := .blk) hblk,
      val_congr (x := .kn) hkn, val_congr (x := .ke) hke]
    split_ifs
    · apply SameAnswer.ok
      exact ⟨congrArg (toBE · _) hB, rfl, rfl⟩
    · exact .error _
  | decrypt =>
    obtain ⟨hct, hctLen, hkn, hkd, hkv⟩ := h
    rw [commandBody, commandBody, decryptBody, decryptBody, hB, hkv, hctLen, hkd, val_congr (x := .ct) hct,
      val_congr (x := .kn) hkn]
    split_ifs
    · apply SameAnswer.ok
      exact ⟨congrArg (toBE · _) hB, rfl⟩
    · exact .error _
    · exact .error _
  | checkpad => exact .ok (i := .checkpad) (oracleBit_congr ⟨hbuild, h⟩)

end

theorem sameWrites_finish {i : Instr} {t t' : State} (h : SameWrites i t t') (c : Err) :
    SameWrites i (finish c t) (finish c t') := by
  cases i <;> exact h

theorem exec_writesOnlyIts {i : Instr} {s t : State} (h : exec i s = .next t) :
    WritesOnlyIts i s t ∧ (t.err ≠ .none → t = { s with err := t.err, done := t.done, busy := t.busy }) ∧
      (i = .checkpad → t.err = .none) := by
  rw [exec_eq_commit] at h
  cases h
  rcases commit_cases (commandBody i s) s with ⟨u, hu, e⟩ | ⟨c, hc, e⟩ <;> rw [e]
  · exact ⟨writesOnlyIts_finish (commandBody_writesOnlyIts hu) .none, fun hne => absurd rfl hne, fun _ => rfl⟩
  · refine ⟨writesOnlyIts_finish_self i s c, fun _ => rfl, ?_⟩
    rintro rfl
    cases hc

theorem exec_sameWrites {i : Instr} {s s' t t' : State} (hr : SameReads i s s') (h : exec i s = .next t)
    (h' : exec i s' = .next t') : t.err = t'.err ∧ (t.err = .none → SameWrites i t t') := by
  rw [exec_eq_commit] at h h'
  cases h
  cases h'
  have ha := commandBody_sameAnswer hr
  rcases commit_cases (commandBody i s) s with ⟨u, hu, e⟩ | ⟨c, hc, e⟩ <;>
    rcases commit_cases (commandBody i s') s' with ⟨u', hu', e'⟩ | ⟨c', hc', e'⟩ <;> rw [e, e']
  · rw [hu, hu'] at ha
    cases ha with
    | ok h => exact ⟨rfl, fun _ => sameWrites_finish h .none⟩
  · rw [hu, hc'] at ha
    cases ha
  · rw [hc, hu'] at ha
    cases ha
  · rw [hc, hc'] at ha
    cases ha
    exact ⟨rfl, fun hnone => absurd hnone (commandBody_error_ne_none hc)⟩

/-- Settles O40: a command is one commit of its pseudocode, which stages writes to its destinations and looks at its
operands only. -/
theorem commandsUseOnlyTheirOperands : Obligations.CommandsUseOnlyTheirOperands :=
  fun _ => ⟨fun _ _ => exec_writesOnlyIts, fun _ _ _ _ => exec_sameWrites⟩

/-! ### The bytes of a run of words -/

/-- Byte `k` of words that stand one after the other; 0 past the last. -/
def wordsByte (ws : List Word) (k : Nat) : Byte :=
  wordByte (ws.getD (k / 4) 0#32) (k % 4)

theorem wordsByte_cons_of_lt (w : Word) (ws : List Word) {k : Nat} (h : k < 4) :
    wordsByte (w :: ws) k = wordByte w k := by
  rw [wordsByte, Nat.div_eq_of_lt h, Nat.mod_eq_of_lt h, List.getD_cons_zero]

theorem wordsByte_cons_add (w : Word) (ws : List Word) (k : Nat) : wordsByte (w :: ws) (k + 4) = wordsByte ws k := by
  rw [wordsByte, Nat.add_div_right k (by decide), Nat.add_mod_right, List.getD_cons_succ, wordsByte]

theorem byteAt_of_length_le {x : Buf} {i : Nat} (h : x.length ≤ i) : byteAt x i = 0x00#8 :=
  List.getD_eq_default x _ h

theorem wordsByte_nil (k : Nat) : wordsByte [] k = byteAt [] k := by
  simp [wordsByte, wordByte, byteAt]

theorem length_wordsOf (data : List Byte) : (wordsOf data).length = (data.length + 3) / 4 := by
  induction data using wordsOf.induct with
  | case1 | case2 | case3 | case4 => simp [wordsOf]
  | case5 a b c d rest ih =>
    simp only [wordsOf, List.length_cons, ih]
    omega

theorem wordsByte_packWord_cons {ws : List Word} {rest : List Byte} (h : ∀ k, wordsByte ws k = byteAt rest k)
    (a b c d : Byte) (k : Nat) : wordsByte (packWord a b c d :: ws) k = byteAt (a :: b :: c :: d :: rest) k := by
  obtain ⟨h0, h1, h2, h3⟩ := wordByte_packWord a b c d
  match k with
  | 0 => exact h0
  | 1 => exact h1
  | 2 => exact h2
  | 3 => exact h3
  | k + 4 => exact (wordsByte_cons_add _ ws k).trans (h k)

/-- Zeros at the end of a buffer read as what lies past its end. -/
theorem byteAt_append_zeros (x : Buf) (n k : Nat) : byteAt (x ++ List.replicate n 0x00#8) k = byteAt x k := by
  by_cases h : k < x.length
  · exact byteAt_append_left h
  · rw [byteAt_append_right (Nat.not_lt.1 h), byteAt_replicate_zero, byteAt_of_length_le (Nat.not_lt.1 h)]

/-- The words of data hold the data, and zeros up to the end of the last word (R117). -/
theorem wordsByte_wordsOf (data : List Byte) (k : Nat) : wordsByte (wordsOf data) k = byteAt data k := by
  induction data using wordsOf.induct generalizing k with
  | case1 =>
    rw [wordsOf]
    exact wordsByte_nil k
  | case2 a =>
    rw [wordsOf, wordsByte_packWord_cons wordsByte_nil]
    exact byteAt_append_zeros [a] 3 k
  | case3 a b =>
    rw [wordsOf, wordsByte_packWord_cons wordsByte_nil]
    exact byteAt_append_zeros [a, b] 2 k
  | case4 a b c =>
    rw [wordsOf, wordsByte_packWord_cons wordsByte_nil]
    exact byteAt_append_zeros [a, b, c] 1 k
  | case5 a b c d rest ih =>
    rw [wordsOf]
    exact wordsByte_packWord_cons ih a b c d k

/-! ### Words written to a region one after the other -/

/-- A buffer after words are written from byte index `i` on. -/
def putWords (x : Buf) (i : Nat) : List Word → Buf
  | [] => x
  | w :: ws => putWords (putWord x i w) (i + 4) ws

@[simp] theorem length_putWords (x : Buf) (i : Nat) (ws : List Word) : (putWords x i ws).length = x.length := by
  induction ws generalizing x i with
  | nil => rfl
  | cons w ws ih => rw [putWords, ih, length_putWord]

/-- Past the end of a buffer nothing is stored, as past the register in its region (R75). -/
theorem putWord_of_length_le {x : Buf} {i : Nat} (h : x.length ≤ i) (v : Word) : putWord x i v = x := by
  have hset : ∀ k, i ≤ k → ∀ b, x.set k b = x := fun k hk b => List.set_eq_of_length_le (h.trans hk)
  rw [putWord, hset i (by omega), hset (i + 1) (by omega), hset (i + 2) (by omega), hset (i + 3) (by omega)]

theorem byteAt_putWord_of_disjoint (x : Buf) {i j : Nat} (v : Word) (h : j < i ∨ i + 4 ≤ j) :
    byteAt (putWord x i v) j = byteAt x j := by
  simp only [byteAt, putWord, List.getD_eq_getElem?_getD]
  rw [List.getElem?_set_ne (by omega), List.getElem?_set_ne (by omega), List.getElem?_set_ne (by omega),
    List.getElem?_set_ne (by omega)]

/-- Every byte of the buffer from index `i` up to the end of the words is theirs, and every other is as before. -/
theorem byteAt_putWords (ws : List Word) {x : Buf} {i j : Nat} (hx : x.length % 4 = 0) (hi : i % 4 = 0)
    (hj : j < x.length) :
    byteAt (putWords x i ws) j = if i ≤ j ∧ j < i + 4 * ws.length then wordsByte ws (j - i) else byteAt x j := by
  induction ws generalizing x i with
  | nil =>
    rw [putWords, if_neg]
    simp only [List.length_nil]
    omega
  | cons w ws ih =>
    rw [putWords, ih (by simpa using hx) (by omega) (by simpa using hj), List.length_cons]
    by_cases hlt : j < i
    · rw [if_neg (by omega), if_neg (by omega), byteAt_putWord_of_disjoint x w (.inl hlt)]
    by_cases hword : j < i + 4
    · rw [if_neg (by omega), if_pos (by omega), byteAt_putWord x i j w (by omega), if_pos (by omega),
        wordsByte_cons_of_lt w ws (by omega)]
    · obtain ⟨k, rfl⟩ := Nat.exists_eq_add_of_le (Nat.not_lt.1 hword)
      rw [byteAt_putWord_of_disjoint x w (.inr (Nat.le_add_right _ k)), Nat.add_sub_cancel_left,
        show i + 4 + k - i = k + 4 by omega, wordsByte_cons_add]
      exact if_congr (by omega) rfl rfl

theorem regionBase_mod_four (x : BigReg) : regionBase x % 4 = 0 := by
  cases x <;> rfl

theorem regionBase_le (x : BigReg) : regionBase x ≤ 0xB000 := by
  cases x <;> decide

/-- A write to a writable register's region stores its word, past the register too, where `putWord` stores nothing. -/
theorem memWrite_writable {s : State} {x : BigReg} {i : Nat} (hs : s.WF) (hb : s.busy = false)
    (hx : hostWritable s x = true) (hi : i < 0x1000) (v : Word) :
    memWrite s (regionBase x + i) v = s.setBuf x (putWord (s.buf x) i v) := by
  by_cases hB : i < s.B
  · exact memWrite_region_word hb hx hi hB v
  · have hB := Nat.not_lt.1 hB
    rw [memWrite_region_ignored hi (.inr hB), putWord_of_length_le (by rwa [length_buf hs x]), setBuf_buf]

theorem step_of_wrEvent {s : State} {h off : Nat} {v : Word} {es : List Event} (hw : s.build.wf = true)
    (hoff : off < 0x10000) (halign : off % 4 = 0) (hp : s.host.pending = wrEvent h s.build off v :: es) :
    step s = .next (memWrite (withPending s es) off v) := by
  let a : Access := { host := h, addr := s.build.base + off, bytes := 4, op := .write v }
  have hoffset : a.offset s.build = off := Nat.add_sub_cancel_left _ _
  have ht : AccessTurn s a es :=
    ⟨hp, (routed_iff _ _).2 ⟨Nat.le_add_right _ _, Nat.add_lt_add_left hoff _⟩,
      (access_wf_iff _ _).2 ⟨rfl, by rwa [hoffset]⟩⟩
  rw [step_of_write hw ht rfl, hoffset]

@[simp] theorem hostWritable_withPending (s : State) (es : List Event) (x : BigReg) :
    hostWritable (withPending s es) x = hostWritable s x := by
  cases x <;> rfl

theorem withPending_setBuf (s : State) (x : BigReg) (b : Buf) (es : List Event) :
    withPending (s.setBuf x b) es = (withPending s es).setBuf x b := by
  cases x <;> rfl

theorem step_of_wrEvent_region {s : State} {h : Nat} {x : BigReg} {i : Nat} {v : Word} {es : List Event} (hs : s.WF)
    (hb : s.busy = false) (hx : hostWritable s x = true) (halign : i % 4 = 0) (hi : i < 0x1000)
    (hp : s.host.pending = wrEvent h s.build (regionBase x + i) v :: es) :
    step s = .next ((withPending s es).setBuf x (putWord (s.buf x) i v)) := by
  have hbase := regionBase_mod_four x
  have hle := regionBase_le x
  rw [step_of_wrEvent hs.build (by omega) (by omega) hp,
    memWrite_writable (hs.withPending es) hb (by simpa using hx) hi, buf_withPending]

/-- The writes of words to a writable region of an idle block: after one step each, the words stand in the register
and nothing else has changed. -/
theorem runsTo_wrWords {s : State} {h : Nat} {x : BigReg} {i : Nat} {ws : List Word} {es : List Event} (hs : s.WF)
    (hb : s.busy = false) (hx : hostWritable s x = true) (halign : i % 4 = 0) (hi : i + 4 * ws.length ≤ 0x1000)
    (hp : s.host.pending = wrWords h s.build (regionBase x + i) ws ++ es) :
    RunsTo ws.length s ((withPending s es).setBuf x (putWords (s.buf x) i ws)) := by
  induction ws generalizing s i with
  | nil =>
    have hend : s.host.pending = es := hp
    subst hend
    exact (runsTo_zero _ _).2 (setBuf_buf s x).symm
  | cons w ws ih =>
    rw [List.length_cons] at hi
    have hstep := step_of_wrEvent_region hs hb hx halign (by omega) hp
    have hrun := ih (i := i + 4) (hs.step hstep) (by simpa using hb) (by simpa using hx) (by omega)
      (by omega) (by simp [Nat.add_assoc])
    rw [buf_setBuf_self, withPending_setBuf, setBuf_setBuf] at hrun
    exact (runsTo_succ _ _ _).2 ⟨_, hstep, hrun⟩

/-- Settles O55: the words of the data are written one after the other, and those past the register store nothing. -/
theorem ldbLineStoresTheBytes : Obligations.LdbLineStoresTheBytes := by
  intro h s x data hs hb hx hlen hp
  have hwords := length_wordsOf data
  have hrun := runsTo_wrWords (i := 0) (ws := wordsOf data) (es := []) hs hb hx rfl (by omega)
    (by rw [hp, List.append_nil]; rfl)
  obtain ⟨hmod, -, -, -, -, -⟩ := build_facts hs.build
  rw [hwords] at hrun
  refine ⟨_, hrun, ?_, ?_, fun i hi => ?_⟩
  · rw [buf_setBuf_self]
    cases x <;> rfl
  · rw [buf_setBuf_self, length_putWords, length_buf hs x]
  · rw [buf_setBuf_self, byteAt_putWords _ (by rwa [length_buf hs x]) rfl (by rwa [length_buf hs x]), hwords,
      wordsByte_wordsOf, Nat.sub_zero]
    by_cases hdata : i < data.length
    · rw [if_pos (by omega), if_pos hdata]
    · rw [if_neg hdata, byteAt_of_length_le (Nat.not_lt.1 hdata)]
      exact if_congr (by omega) rfl rfl

/-- Settles O54: the line is that of LDB with the B bytes of the integer. -/
theorem ldiLineLoadsTheInteger : Obligations.LdiLineLoadsTheInteger := by
  intro h s x v hs hb hx hv hp
  obtain ⟨hmod, -, hmax, -, -, -⟩ : s.B % 4 = 0 ∧ 4 ≤ s.B ∧ s.B ≤ 4096 ∧ _ := build_facts hs.build
  have hlen : (toBE s.B v).length = s.B := length_toBE s.B v
  obtain ⟨t, hrun, ht, htlen, hbytes⟩ := ldbLineStoresTheBytes h s x (toBE s.B v) hs hb hx (by omega) hp
  have hbuf : t.buf x = toBE s.B v := by
    refine ext_byteAt (htlen.trans hlen.symm) fun i hi => ?_
    rw [hbytes i (by omega), if_pos (by omega)]
  rw [hlen, show (s.B + 3) / 4 = s.B / 4 by omega] at hrun
  exact ⟨t, hrun, ht, htlen, by rw [State.val, hbuf, beNat_toBE_of_lt hv]⟩

/-! ### POLL and RUN -/

theorem step_of_poll {s : State} {h : Nat} {gaps : List Nat} {es : List Event} (hw : s.build.wf = true)
    (hp : s.host.pending = .poll h gaps :: es) : step s = .next { s with host :=
      { pending := if s.busy then pollAgain h gaps es else es
        replies := { addr := s.build.base + 0x0004, data := statusWord s } :: s.host.replies } } := by
  rw [step_of_pending_cons hw hp, perform, pollRound_eq]
  rfl

theorem step_of_poll_idle {s : State} {h : Nat} {gaps : List Nat} {es : List Event} (hw : s.build.wf = true)
    (hb : s.busy = false) (hp : s.host.pending = .poll h gaps :: es) : step s = .next { s with host :=
      { pending := es
        replies := { addr := s.build.base + 0x0004, data := statusWord s } :: s.host.replies } } := by
  rw [step_of_poll hw hp, hb]
  rfl

/-- Settles O56: the round as `pollRound_eq` has it, and the place of the next read by `afterOthers_eq`. -/
theorem pollReadsUntilIdle : Obligations.PollReadsUntilIdle := by
  intro s h gaps es hw hp
  refine ⟨_, step_of_poll hw hp, fun hb => by simp [hb], fun hb hgaps => by simp [hb, hgaps, pollAgain], ?_⟩
  intro g gs hb hgaps
  rw [hb, hgaps]
  exact afterOthers_eq h (.poll h gs) g es

@[simp] theorem val_setHost (s : State) (e : HostSide) (x : BigReg) : State.val { s with host := e } x = s.val x := by
  cases x <;> rfl

/-- No command's pseudocode looks at what hosts do or have read. -/
theorem commandBody_setHost (i : Instr) (s : State) (e : HostSide) :
    commandBody i { s with host := e } = (commandBody i s).map fun t => { t with host := e } := by
  cases i with
  | modexp =>
    simp only [commandBody, modexpBody, val_setHost]
    split_ifs <;> rfl
  | modinv =>
    simp only [commandBody, modinvBody, val_setHost]
    split_ifs
    · rfl
    · cases modInv (s.val .opa) (s.val .opm) <;> rfl
  | keygen =>
    simp only [commandBody, keygenBody, State.B, val_setHost]
    split_ifs
    · rfl
    · cases keyDerive s.B (s.val .kp) (s.val .kq) (s.val .ke) <;> rfl
  | encodeMsg =>
    simp only [commandBody, encodeBody, State.B]
    split_ifs <;> rfl
  | decodeBlk =>
    simp only [commandBody, decodeBody]
    cases padDecode s.blk <;> rfl
  | encrypt =>
    simp only [commandBody, encryptBody]
    split_ifs <;> rfl
  | decrypt =>
    simp only [commandBody, decryptBody, State.B]
    split_ifs <;> rfl
  | checkpad => rfl

theorem exec_setHost {i : Instr} {s c : State} (h : exec i s = .next c) (e : HostSide) :
    exec i { s with host := e } = .next { c with host := e } := by
  rw [exec_eq_commit] at h ⊢
  cases h
  rw [commandBody_setHost]
  cases commandBody i s <;> rfl

theorem busy_of_exec {i : Instr} {s c : State} (h : exec i s = .next c) : c.busy = false := by
  rw [exec_eq_commit] at h
  cases h
  exact (commit_idle _ s).1

/-- A read of a POLL line that sees the block busy leaves the line with one busy read less. -/
theorem step_of_pollEvents_succ {s : State} {h k : Nat} (hw : s.build.wf = true) (hb : s.busy = true)
    (hp : s.host.pending = pollEvents h (k + 1)) : step s = .next { s with host :=
      { pending := pollEvents h k
        replies := { addr := s.build.base + 0x0004, data := statusWord s } :: s.host.replies } } := by
  rw [step_of_poll hw hp, hb]
  cases k <;> rfl

section
variable {s c : State} {i : Instr} (hw : s.build.wf = true) (hb : s.busy = true) (hi : decode s.curCmd = .ok i)
  (hc : exec i s = .next c)
include hw hb hi hc

/-- A POLL line with no read left before the completion: the ENGINE completes the command, and the next read sees it
idle. -/
theorem runsTo_pollEvents_zero {h : Nat} {e : HostSide} (he : e.pending = pollEvents h 0) :
    RunsTo 2 { s with host := e } { c with host :=
      { pending := []
        replies := { addr := s.build.base + 0x0004, data := statusWord c } :: e.replies } } := by
  have hengine : step { s with host := e } = .next { c with host := ⟨[.poll h []], e.replies⟩ } := by
    rw [step_of_pending_cons (s := { s with host := e }) hw he, perform]
    exact (engineMove_eq_exec (s := { s with host := ⟨_, e.replies⟩ }) hb hi).trans (exec_setHost hc _)
  have hbuild : c.build = s.build := engineMove_build ((engineMove_eq_exec hb hi).trans hc)
  have hidle : c.busy = false := busy_of_exec hc
  have hpoll := step_of_poll_idle (s := { c with host := ⟨[.poll h []], e.replies⟩ }) (hbuild ▸ hw) hidle rfl
  have hbase : s.build.base = c.build.base := congrArg Build.base hbuild.symm
  rw [hbase]
  exact (runsTo_succ _ _ _).2 ⟨_, hengine, (runsTo_succ _ _ _).2 ⟨_, hpoll, (runsTo_zero _ _).2 rfl⟩⟩

/-- A POLL line on a busy block: `k` reads see it busy, then the ENGINE completes the command, and the last read sees
what the command left. -/
theorem runsTo_pollEvents {h k : Nat} {e : HostSide} (he : e.pending = pollEvents h k) :
    RunsTo (k + 2) { s with host := e } { c with host :=
      { pending := []
        replies := { addr := s.build.base + 0x0004, data := statusWord c } ::
          (List.replicate k { addr := s.build.base + 0x0004, data := statusWord s } ++ e.replies) } } := by
  induction k generalizing e with
  | zero => exact runsTo_pollEvents_zero hw hb hi hc he
  | succ k ih =>
    have hstep := step_of_pollEvents_succ (s := { s with host := e }) hw hb he
    have hrun := ih (e := ⟨pollEvents h k, ⟨s.build.base + 0x0004, statusWord s⟩ :: e.replies⟩) rfl
    rw [List.append_cons, ← List.replicate_succ'] at hrun
    exact (runsTo_succ _ _ _).2 ⟨_, hstep, hrun⟩

end

/-- Settles O57: the write issues the command, and the POLL line runs it and sees its end. -/
theorem runLineCompletesTheCommand : Obligations.RunLineCompletesTheCommand := by
  intro h s i k hw hb hp
  let u := issue (encode i) s
  have hc := exec_eq_commit i u
  have hstep : step s = .next { u with host := { pending := pollEvents h k, replies := s.host.replies } } := by
    rw [step_of_wrEvent hw (by decide) rfl hp, memWrite_cmd (s := withPending s (pollEvents h k)) hb]
    rfl
  exact ⟨_, hc, (runsTo_succ _ _ _).2 ⟨_, hstep, runsTo_pollEvents (s := u) hw rfl (decode_encode i) hc rfl⟩⟩

end Sys2Proof.Machine
end

section
/-! Proofs of the modular arithmetic family (spec 40_modarith.md): MODEXP and MODINV. -/

namespace Sys2Proof.Machine

/-! ### What a completion answers -/

theorem exec_of_commandBody_error {i : Instr} {s : State} {c : Err} (hb : commandBody i s = .error c) :
    exec i s = .next { s with err := c, done := true, busy := false } := by
  rw [exec_eq_commit, hb]
  rfl

theorem exec_of_commandBody_ok {i : Instr} {s t : State} (hb : commandBody i s = .ok t) :
    exec i s = .next (finish .none t) := by
  rw [exec_eq_commit, hb]
  rfl

/-- An operand, and so everything below one, fits the B bytes of a register (R31). -/
theorem val_setVal_of_lt_val {s : State} (h : s.WF) (x y : BigReg) {v : Nat} (hv : v < s.val y) :
    (s.setVal x v).val x = v := by
  rw [val_setVal_self, Nat.mod_eq_of_lt (hv.trans (val_lt h y))]

/-- A command that stages one value below OPM for RES: it completes with ERR 0, RES holds the value, and the rest of
the state stands (R122, R123). -/
theorem exec_of_commandBody_setVal_res {i : Instr} {s : State} {v : Nat} (h : s.WF) (hv : v < s.val .opm)
    (hb : commandBody i s = .ok (s.setVal .res v)) :
    ∃ t, exec i s = .next t ∧ t = { s with res := t.res, err := .none, done := true, busy := false } ∧
      t.res.length = s.B ∧ t.val .res = v := by
  refine ⟨_, exec_of_commandBody_ok hb, rfl, length_buf ((h.setVal .res v).finish .none) .res, ?_⟩
  rw [val_finish, val_setVal_of_lt_val h .res .opm hv]

/-! ### The two commands -/

/-- Settles O31: the outcomes are those of `modexpBody_cases`, and a remainder modulo OPM fits RES. -/
theorem modexpComputesThePower : Obligations.ModexpComputesThePower := by
  intro s h
  rcases modexpBody_cases s with ⟨hz, hb⟩ | ⟨hm, hb⟩
  · exact ⟨rfl, fun _ => exec_of_commandBody_error (i := .modexp) hb, fun hm => absurd hz hm⟩
  · have hlt : s.val .opa ^ s.val .opb % s.val .opm < s.val .opm := Nat.mod_lt _ (Nat.pos_of_ne_zero hm)
    exact ⟨rfl, fun hz => absurd hz hm, fun _ => exec_of_commandBody_setVal_res (i := .modexp) h hlt hb⟩

/-- Settles O32: the outcomes are those of `modinvBody_cases`, and the inverse is the only one below OPM. -/
theorem modinvComputesTheInverse : Obligations.ModinvComputesTheInverse := by
  intro s h
  rcases modinvBody_cases s with ⟨hz, hb⟩ | ⟨hm, hng, hb⟩ | ⟨hm, hg, d, hd, hinv, hb⟩
  · exact ⟨rfl, fun _ => exec_of_commandBody_error (i := .modinv) hb, fun hm => absurd hz hm, fun hm => absurd hz hm⟩
  · exact ⟨rfl, fun hz => absurd hz hm, fun _ _ => exec_of_commandBody_error (i := .modinv) hb,
      fun _ hg => absurd hg hng⟩
  · refine ⟨rfl, fun hz => absurd hz hm, fun _ hng => absurd hg hng, fun _ _ => ?_⟩
    obtain ⟨t, hexec, ht, hlen, hres⟩ := exec_of_commandBody_setVal_res (i := .modinv) h hd hb
    refine ⟨t, hexec, ht, hlen, hres ▸ hd, hres ▸ hinv, fun e he heinv => ?_⟩
    rw [hres]
    exact inverse_unique hg he hd (heinv.trans hinv.symm)

end Sys2Proof.Machine
end

section
/-! Proofs of the key material family (spec 41_keymaterial.md): KEYGEN, the key it installs, and the key's
immutability until reset. -/

namespace Sys2Proof.Machine

/-! ### The key registers of a state with a key -/

theorem keygenBody_of_keyValid {s : State} (hk : s.keyValid = true) : keygenBody s = .error .keyLocked := by
  rw [keygenBody, if_pos hk]

/-- With a key KEYGEN fails (R141), and no other command writes a key register. -/
theorem commandBody_keyRegs_of_keyValid {s t : State} {i : Instr} (hk : s.keyValid = true)
    (hb : commandBody i s = .ok t) : t.keyRegs = s.keyRegs := by
  refine commandBody_keyRegs hb ?_
  rintro rfl
  rw [commandBody, keygenBody_of_keyValid hk] at hb
  cases hb

theorem engineMove_keyRegs {s t : State} (hk : s.keyValid = true) (h : engineMove s = .next t) :
    t.keyRegs = s.keyRegs := by
  rcases engineMove_cases s with ⟨-, e⟩ | ⟨-, i, -, e⟩ | ⟨-, d, -, e⟩ <;> rw [e] at h <;> cases h
  · rfl
  · rcases commit_cases (commandBody i s) s with ⟨u, hu, e⟩ | ⟨c, -, e⟩ <;> rw [e]
    · show u.keyRegs = s.keyRegs
      exact commandBody_keyRegs_of_keyValid hk hu
    · rfl
  · rfl

theorem hostAccess_keyRegs {s t : State} {a : Access} (hk : s.keyValid = true) (h : hostAccess a s = .next t) :
    t.keyRegs = s.keyRegs := by
  rcases hostAccess_cases a s with ⟨-, e⟩ | ⟨-, -, e⟩ | ⟨-, -, -, e⟩ | ⟨-, -, v, -, e⟩ <;> rw [e] at h <;> cases h
  · rfl
  · rfl
  · exact memWrite_keyRegs hk _ v

/-- With a key, a step that is not a reset changes no key register (R142). -/
theorem step_keyRegs {s t : State} (hk : s.keyValid = true) (hr : ∀ lost es, s.host.pending ≠ .reset lost :: es)
    (hs : step s = .next t) : t.keyRegs = s.keyRegs := by
  rcases step_cases s with ⟨-, e⟩ | ⟨-, -, e⟩ | ⟨-, es, -, e⟩ | ⟨-, a, es, -, e⟩ | ⟨-, l, es, hp, -⟩ |
    ⟨-, host, gaps, es, -, e⟩
  · rw [e] at hs
    cases hs
  · rw [e] at hs
    exact engineMove_keyRegs hk hs
  · rw [e] at hs
    exact engineMove_keyRegs (s := withPending s es) hk hs
  · rw [e] at hs
    exact hostAccess_keyRegs (s := withPending s es) hk hs
  · exact absurd hp (hr l es)
  · rw [e] at hs
    cases hs
    rfl

/-! ### The events of the next `n` steps -/

theorem mem_take_cons {x e : Event} {es : List Event} {n : Nat} (he : e ∈ (x :: es).take n) :
    e ∈ es.take n ∨ e = x := by
  cases n with
  | zero => cases he
  | succ n =>
    rw [List.take_succ_cons, List.mem_cons] at he
    exact he.symm.imp_left fun he => List.take_subset_take_left es n.le_succ he

/-- Putting an event in only moves others back: the first `n` are among the first `n` of before. -/
theorem mem_take_afterOthers {h : Nat} {next e : Event} {g n : Nat} {es : List Event}
    (he : e ∈ (afterOthers h next g es).take n) : e ∈ es.take n ∨ e = next := by
  induction g generalizing es n with
  | zero => exact mem_take_cons he
  | succ g ih =>
    cases es with
    | nil => exact mem_take_cons he
    | cons x es =>
      rw [afterOthers] at he
      split_ifs at he
      · exact mem_take_cons he
      · cases n with
        | zero => cases he
        | succ n =>
          rw [List.take_succ_cons, List.mem_cons] at he ⊢
          rcases he with he | he
          · exact .inl (.inl he)
          · exact (ih he).imp_left .inr

theorem mem_take_pollAgain {h : Nat} {gaps : List Nat} {es : List Event} {e : Event} {n : Nat}
    (he : e ∈ (pollAgain h gaps es).take n) : e ∈ es.take n ∨ e = .engine ∨ ∃ gs, e = .poll h gs := by
  cases gaps with
  | nil =>
    rcases mem_take_cons he with he | he
    · exact (mem_take_cons he).imp_right fun he => .inr ⟨_, he⟩
    · exact .inr (.inl he)
  | cons g gs => exact (mem_take_afterOthers he).imp_right fun he => .inr ⟨_, he⟩

theorem mem_take_pending_pollRound {h : Nat} {gaps : List Nat} {s : State} {e : Event} {n : Nat}
    (he : e ∈ (pollRound h gaps s).host.pending.take n) :
    e ∈ s.host.pending.take n ∨ e = .engine ∨ ∃ gs, e = .poll h gs := by
  rw [pollRound_eq] at he
  cases hb : s.busy with
  | true =>
    rw [hb] at he
    exact mem_take_pollAgain he
  | false =>
    rw [hb] at he
    exact .inl he

/-- The first `n` events after a step are among the first `n + 1` before it, or they are the ENGINE's turn and further
reads of a POLL loop. -/
theorem mem_take_pending_of_step {s t : State} {e : Event} {n : Nat} (hs : step s = .next t)
    (he : e ∈ t.host.pending.take n) :
    e ∈ s.host.pending.take (n + 1) ∨ e = .engine ∨ ∃ h gs, e = .poll h gs := by
  have hw := build_wf_of_step hs
  cases hp : s.host.pending with
  | nil =>
    rw [step_of_pending_nil hw hp] at hs
    rw [engineMove_host hs, hp, List.take_nil] at he
    cases he
  | cons x es =>
    rw [step_of_pending_cons hw hp] at hs
    rw [List.take_succ_cons]
    cases x with
    | engine =>
      rw [engineMove_host hs] at he
      exact .inl (List.mem_cons_of_mem _ he)
    | access a =>
      rw [hostAccess_pending hs] at he
      exact .inl (List.mem_cons_of_mem _ he)
    | reset l =>
      cases hs
      exact .inl (List.mem_cons_of_mem _ he)
    | poll h gaps =>
      cases hs
      rcases mem_take_pending_pollRound he with he | he | ⟨gs, he⟩
      · exact .inl (List.mem_cons_of_mem _ he)
      · exact .inr (.inl he)
      · exact .inr (.inr ⟨h, gs, he⟩)

/-- Where none of the first `n + 1` events is a reset, none of the first `n` after a step is. -/
theorem step_keeps_take_no_reset {s t : State} {n : Nat} (hs : step s = .next t)
    (hr : ∀ e ∈ s.host.pending.take (n + 1), e.isReset = false) : ∀ e ∈ t.host.pending.take n, e.isReset = false := by
  intro e he
  rcases mem_take_pending_of_step hs he with he | rfl | ⟨h, gs, rfl⟩
  · exact hr e he
  · rfl
  · rfl

theorem pending_ne_reset_of_take {s : State} {n : Nat}
    (hr : ∀ e ∈ s.host.pending.take (n + 1), e.isReset = false) (lost : List Access) (es : List Event) :
    s.host.pending ≠ .reset lost :: es := by
  intro hp
  rw [hp, List.take_succ_cons, List.forall_mem_cons] at hr
  obtain ⟨hreset, -⟩ := hr
  cases hreset

/-- With a key, a run with no reset among its events changes no key register, by induction on its steps. -/
theorem runsTo_keyRegs {n : Nat} {s t : State} (hk : s.keyValid = true)
    (hr : ∀ e ∈ s.host.pending.take n, e.isReset = false) (hrun : RunsTo n s t) : t.keyRegs = s.keyRegs := by
  induction n generalizing s with
  | zero =>
    rw [runsTo_zero] at hrun
    rw [hrun]
  | succ n ih =>
    obtain ⟨u, hs, hrun⟩ := (runsTo_succ n s t).1 hrun
    have hu : u.keyRegs = s.keyRegs := step_keyRegs hk (pending_ne_reset_of_take hr) hs
    obtain ⟨-, -, -, -, -, -, hkv⟩ := (keyRegs_eq_iff s u).1 hu
    exact (ih (hkv.trans hk) (step_keeps_take_no_reset hs hr) hrun).trans hu

/-- Settles O42: KEYGEN is locked, and no step of the run changes a key register. -/
theorem keyIsImmutableUntilReset : Obligations.KeyIsImmutableUntilReset := by
  refine ⟨fun s hk => exec_of_commandBody_error (i := .keygen) (keygenBody_of_keyValid hk), fun n s t hk hr hrun => ?_⟩
  have ht := (keyRegs_eq_iff s t).1 (runsTo_keyRegs hk hr hrun)
  rwa [hk] at ht

/-! ### The outcomes of KEYGEN -/

section
variable {size p q e : Nat}

theorem keyDerive_of_out_of_range (h : p < 2 ∨ q < 2 ∨ 256 ^ size ≤ p * q) :
    keyDerive size p q e = .error .operand := by
  cases hd : keyDerive size p q e with
  | ok k =>
    obtain ⟨hp, hq, hn, -⟩ := keyDerive_ok hd
    omega
  | error c =>
    rcases keyDerive_error hd with ⟨rfl, -⟩ | ⟨-, hp, hq, hn, -⟩
    · rfl
    · omega

theorem keyDerive_of_gcd_ne_one (hp : 2 ≤ p) (hq : 2 ≤ q) (hn : p * q < 256 ^ size)
    (hg : Nat.gcd e ((p - 1) * (q - 1)) ≠ 1) : keyDerive size p q e = .error .domain := by
  cases hd : keyDerive size p q e with
  | ok k =>
    obtain ⟨-, -, -, -, hphi, hg', -⟩ := keyDerive_ok hd
    exact absurd (hphi ▸ hg') hg
  | error c =>
    rcases keyDerive_error hd with ⟨-, hrange⟩ | ⟨rfl, -⟩
    · omega
    · rfl

theorem exists_keyDerive_eq_ok (hp : 2 ≤ p) (hq : 2 ≤ q) (hn : p * q < 256 ^ size)
    (hg : Nat.gcd e ((p - 1) * (q - 1)) = 1) : ∃ k, keyDerive size p q e = .ok k := by
  cases hd : keyDerive size p q e with
  | ok k => exact ⟨k, rfl⟩
  | error c =>
    rcases keyDerive_error hd with ⟨-, hrange⟩ | ⟨-, -, -, -, hg'⟩
    · omega
    · exact absurd hg hg'

end

/-- Without a key KEYGEN answers what KeyDerive answers, and installs the key it derives (R141). -/
theorem keygenBody_of_no_key {s : State} (hk : s.keyValid = false) :
    keygenBody s = (keyDerive s.B (s.val .kp) (s.val .kq) (s.val .ke)).map (installKey s) := by
  rw [keygenBody, if_neg (by simp [hk])]
  cases keyDerive s.B (s.val .kp) (s.val .kq) (s.val .ke) <;> rfl

/-- Settles O33: with no key the outcomes are those of KeyDerive, and n is below 256^B, so KN holds all of it. -/
theorem keygenBuildsTheKeyOnce : Obligations.KeygenBuildsTheKeyOnce := by
  intro s _
  refine ⟨rfl, fun hk => exec_of_commandBody_error (i := .keygen) (keygenBody_of_keyValid hk), fun hk hbad => ?_,
    fun hk hp hq hn hg => ?_, fun hk hp hq hn hg => ?_⟩
  · have hb : keygenBody s = .error .operand := by rw [keygenBody_of_no_key hk, keyDerive_of_out_of_range hbad]; rfl
    exact exec_of_commandBody_error (i := .keygen) hb
  · have hb : keygenBody s = .error .domain := by rw [keygenBody_of_no_key hk, keyDerive_of_gcd_ne_one hp hq hn hg]; rfl
    exact exec_of_commandBody_error (i := .keygen) hb
  · obtain ⟨k, hd⟩ := exists_keyDerive_eq_ok hp hq hn hg
    have hb : keygenBody s = .ok (installKey s k) := by rw [keygenBody_of_no_key hk, hd]; rfl
    obtain ⟨-, -, -, hkn, hphi, -, hlt, hinv⟩ := keyDerive_ok hd
    have hval : (s.setVal .kn k.n).val .kn = s.val .kp * s.val .kq := by
      rw [val_setVal_self, hkn, Nat.mod_eq_of_lt hn]
    rw [← hphi]
    exact ⟨_, exec_of_commandBody_ok (i := .keygen) hb, rfl, length_toBE s.B k.n, hval, hlt, hinv⟩

/-! ### The key after KEYGEN -/

/-- A KEYGEN that answers ERR 0 has installed a derived key, so the key invariant holds after it, whatever held
before. -/
theorem keyInv_of_exec_keygen {s t : State} (h : exec .keygen s = .next t) (he : t.err = .none) :
    t.keyValid = true ∧ t.KeyInv := by
  rw [exec_eq_commit] at h
  cases h
  rcases keygenBody_cases s with ⟨-, hb⟩ | ⟨-, c, -, hb⟩ | ⟨-, k, hk, hb⟩
  · rw [commandBody, hb] at he
    cases he
  · rw [commandBody, hb] at he
    exact absurd he (commandBody_error_ne_none (i := .keygen) hb)
  · rw [commandBody, hb]
    exact ⟨rfl, (keyInv_installKey hk).of_keyRegs_eq rfl⟩

/-- KEYGEN from reset: its checks pass, and KD is the default key's, the only inverse of e below phi (R143). -/
theorem exec_keygen_reset : ∃ t, exec .keygen State.reset = .next t ∧
    t.kphi = 1000000000000000020000000000000000036 ∧ t.kd = 711491218700886536347101637243084085 := by
  obtain ⟨hB, hp, hq, he, -⟩ := launchStateHoldsTheBuiltInKey
  obtain ⟨hwf, -⟩ := launchStateMeetsTheInvariants
  obtain ⟨-, -, -, -, hkey⟩ := keygenBuildsTheKeyOnce State.reset hwf
  have hphi : (1000000000000000003 - 1) * (1000000000000000019 - 1) = 1000000000000000020000000000000000036 := by
    norm_num
  rw [hB, hp, hq, he, hphi] at hkey
  obtain ⟨t, hexec, ht, -, -, hlt, hinv⟩ :=
    hkey rfl (by norm_num) (by norm_num) (by norm_num) (by norm_num)
  refine ⟨t, hexec, congrArg State.kphi ht, ?_⟩
  refine inverse_unique (a := 65537) (m := 1000000000000000020000000000000000036) (by norm_num) hlt (by norm_num) ?_
  rw [Nat.mul_comm, hinv]

/-- Settles O43: a successful KEYGEN leaves the key invariant, and the default key's values are those of
`exec_keygen_reset`. -/
theorem keygenGivesAnInversePair : Obligations.KeygenGivesAnInversePair := by
  constructor
  · intro s t _ hexec herr hphi
    obtain ⟨hkv, hinv⟩ := keyInv_of_exec_keygen hexec herr
    obtain ⟨-, -, -, -, hgcd, -, hmod⟩ := hinv.present hkv
    exact ⟨hmod.trans (Nat.mod_eq_of_lt hphi), hgcd⟩
  · obtain ⟨t, hexec, hphi, hd⟩ := exec_keygen_reset
    exact ⟨t, hexec, hphi, hd, by rw [hphi, hd]⟩

end Sys2Proof.Machine
end

section
/-! Proofs of the padding family (spec 42_padding.md): ENCODE, DECODE, and one after the other. -/

namespace Sys2Proof.Machine

/-! ### The padded block byte by byte -/

section
variable (msg : Buf) (len : Nat) (r : List Byte)

theorem byteAt_padEncode_zero : byteAt (padEncode msg len r) 0 = 0x00#8 := rfl

theorem byteAt_padEncode_one : byteAt (padEncode msg len r) 1 = 0x02#8 := rfl

theorem byteAt_padEncode_two_add (i : Nat) :
    byteAt (padEncode msg len r) (2 + i) = byteAt (r.map padByte ++ 0x00#8 :: msg.take len) i := by
  rw [padEncode_eq, Nat.add_comm, byteAt_cons_succ, byteAt_cons_succ]

variable {msg len r} {k : Nat} (hr : r.length = k)
include hr

theorem byteAt_padEncode_pad {i : Nat} (h : i < k) : byteAt (padEncode msg len r) (2 + i) = padByte (byteAt r i) := by
  have hmap : i < (r.map padByte).length := by rwa [List.length_map, hr]
  rw [byteAt_padEncode_two_add, byteAt_append_left hmap, byteAt_map_padByte (hr ▸ h)]

theorem byteAt_padEncode_separator : byteAt (padEncode msg len r) (2 + k) = 0x00#8 := by
  have hmap : (r.map padByte).length = k := by rw [List.length_map, hr]
  rw [byteAt_padEncode_two_add, byteAt_append_right hmap.le, hmap, Nat.sub_self, byteAt_cons_zero]

theorem byteAt_padEncode_message {j : Nat} (h : j < len) :
    byteAt (padEncode msg len r) (3 + k + j) = byteAt msg j := by
  have hmap : (r.map padByte).length = k := by rw [List.length_map, hr]
  rw [show 3 + k + j = 2 + (k + (j + 1)) by omega, byteAt_padEncode_two_add, byteAt_append_right (by omega), hmap,
    Nat.add_sub_cancel_left, byteAt_cons_succ, byteAt_take h]

end

/-! ### ENCODE -/

theorem encodeBody_of_lt {s : State} (h : s.B < s.msgLen.toNat + 3) : encodeBody s = .error .encoding :=
  if_pos h

theorem encodeBody_of_le {s : State} (h : s.msgLen.toNat + 3 ≤ s.B) :
    encodeBody s = .ok (encodeWrites s s.msgLen.toNat) :=
  if_neg (Nat.not_lt.2 h)

theorem encodeWrites_blk (s : State) (len : Nat) :
    (encodeWrites s len).blk = padEncode s.msg len (draws s (s.B - 3 - len)) := rfl

/-- Settles O34: MSG_LEN against B - 3 decides the outcome, and on success the block is a padded one of k draws. -/
theorem encodePadsTheMessage : Obligations.EncodePadsTheMessage := by
  intro s h
  obtain ⟨-, hB, -⟩ := build_facts h.build
  refine ⟨rfl, fun hlong => ?_, fun k hk => ?_⟩
  · have hb : encodeBody s = .error .encoding := encodeBody_of_lt (by omega)
    exact exec_of_commandBody_error (i := .encodeMsg) hb
  · have hb : encodeBody s = .ok (encodeWrites s s.msgLen.toNat) :=
      encodeBody_of_le (by rw [State.B] at *; omega)
    have hlen := (h.commandBody (i := .encodeMsg) hb).blk
    obtain rfl : s.B - 3 - s.msgLen.toNat = k := by omega
    have hdraws := length_draws s (s.B - 3 - s.msgLen.toNat)
    refine ⟨_, exec_of_commandBody_ok (i := .encodeMsg) hb, rfl, hlen, ?_⟩
    rw [finish_blk, encodeWrites_blk]
    refine ⟨byteAt_padEncode_zero .., byteAt_padEncode_one .., fun i hi => ?_, byteAt_padEncode_separator hdraws,
      fun j hj => byteAt_padEncode_message hdraws hj⟩
    rw [byteAt_padEncode_pad hdraws hi, byteAt_draws s hi, padByte]

/-! ### DECODE -/

/-- The outcome BADPAD (R152): wrong marker bytes, or no separator from index 2. -/
theorem padDecode_eq_none_iff (x : Buf) :
    padDecode x = none ↔
      byteAt x 0 ≠ 0x00#8 ∨ byteAt x 1 ≠ 0x02#8 ∨ ∀ j, 2 ≤ j → j < x.length → byteAt x j ≠ 0x00#8 := by
  by_cases hmark : byteAt x 0 ≠ 0x00#8 ∨ byteAt x 1 ≠ 0x02#8
  · rw [padDecode, if_pos hmark, ← or_assoc]
    exact ⟨fun _ => .inl hmark, fun _ => rfl⟩
  · rw [padDecode, if_neg hmark, afterSeparator_eq_none, ← or_assoc, or_iff_right hmark]
    simp only [byteAt_drop, List.length_drop]
    constructor
    · intro h j h2 hj
      simpa only [Nat.add_sub_cancel' h2] using h (j - 2) (by omega)
    · intro h i hi
      exact h (2 + i) (by omega) (by omega)

/-- A block with the marker bytes and its first zero byte from index 2 at `j`: the message is what stands after `j`
(R152). -/
theorem padDecode_eq_some {x : Buf} {j : Nat} (h0 : byteAt x 0 = 0x00#8) (h1 : byteAt x 1 = 0x02#8) (h2 : 2 ≤ j)
    (hj : j < x.length) (hz : byteAt x j = 0x00#8) (hn : ∀ i, 2 ≤ i → i < j → byteAt x i ≠ 0x00#8) :
    padDecode x = some (x.drop (j + 1)) := by
  have hsep : afterSeparator (x.drop 2) = some ((x.drop 2).drop (j - 2 + 1)) := by
    refine afterSeparator_eq_some _ (j - 2) ?_ ?_ fun i hi => ?_
    · rw [List.length_drop]; omega
    · rwa [byteAt_drop, Nat.add_sub_cancel' h2]
    · rw [byteAt_drop]; exact hn (2 + i) (by omega) (by omega)
  rw [padDecode, if_neg (by simp [h0, h1]), hsep, List.drop_drop, show 2 + (j - 2 + 1) = j + 1 by omega]

theorem decodeBody_of_padDecode_none {s : State} (h : padDecode s.blk = none) : decodeBody s = .error .padFormat := by
  rw [decodeBody, h]

theorem decodeBody_of_padDecode_some {s : State} {m : List Byte} (h : padDecode s.blk = some m) :
    decodeBody s = .ok (decodeWrites s m) := by
  rw [decodeBody, h]

/-- The message is written from index 0 on, and MSG is zero after it. -/
theorem byteAt_decodeWrites_msg (s : State) (m : List Byte) (i : Nat) : byteAt (decodeWrites s m).msg i = byteAt m i :=
  byteAt_append_zeros m _ i

/-- The length of a message that fits a register fits MSG_LEN. -/
theorem decodeWrites_msgLen_toNat {s : State} (h : s.WF) {m : List Byte} (hm : m.length ≤ s.B) :
    (decodeWrites s m).msgLen.toNat = m.length := by
  obtain ⟨-, -, hB, -⟩ := build_facts h.build
  exact (BitVec.toNat_ofNat ..).trans (Nat.mod_eq_of_lt (by rw [State.B] at hm; omega))

/-- Settles O35: BADPAD is `padDecode_eq_none_iff`, and on success the message is the block after its separator. -/
theorem decodeUnpadsTheBlock : Obligations.DecodeUnpadsTheBlock := by
  intro s h
  refine ⟨rfl, fun hbad => ?_, fun j h0 h1 h2 hj hz hn => ?_⟩
  · have hb : decodeBody s = .error .padFormat :=
      decodeBody_of_padDecode_none ((padDecode_eq_none_iff s.blk).2 (h.blk.symm ▸ hbad))
    exact exec_of_commandBody_error (i := .decodeBlk) hb
  · have hb : decodeBody s = .ok (decodeWrites s (s.blk.drop (j + 1))) :=
      decodeBody_of_padDecode_some (padDecode_eq_some h0 h1 h2 (h.blk.symm ▸ hj) hz hn)
    have hm : (s.blk.drop (j + 1)).length = s.B - 1 - j := by rw [List.length_drop, h.blk]; omega
    refine ⟨_, exec_of_commandBody_ok (i := .decodeBlk) hb, rfl, (h.commandBody (i := .decodeBlk) hb).msg, ?_,
      fun i _ => ?_, fun i hi _ => ?_⟩
    · rw [finish_msgLen, decodeWrites_msgLen_toNat h (by omega), hm]
    · rw [finish_msg, byteAt_decodeWrites_msg, byteAt_drop]
    · rw [finish_msg, byteAt_decodeWrites_msg, byteAt_of_length_le (hm.trans_le hi)]

/-! ### ENCODE, then DECODE -/

/-- Settles O45: no pad byte is zero, so DECODE finds the separator that ENCODE put (`padDecode_padEncode`). -/
theorem codecRoundTripRestoresTheMessage : Obligations.CodecRoundTripRestoresTheMessage := by
  intro s h hL
  obtain ⟨-, hB, -⟩ := build_facts h.build
  have hle : s.msgLen.toNat + 3 ≤ s.B := by rw [State.B] at *; omega
  have hb : encodeBody s = .ok (encodeWrites s s.msgLen.toNat) := encodeBody_of_le hle
  refine ⟨_, exec_of_commandBody_ok (i := .encodeMsg) hb, rfl, fun w => ?_⟩
  have hb' := decodeBody_of_padDecode_some (s := issue w (finish .none (encodeWrites s s.msgLen.toNat)))
    (padDecode_padEncode s.msg s.msgLen.toNat _)
  have hm : (s.msg.take s.msgLen.toNat).length = s.msgLen.toNat := by rw [List.length_take, h.msg]; omega
  refine ⟨_, exec_of_commandBody_ok (i := .decodeBlk) hb', rfl, ?_, fun j hj => ?_⟩
  · rw [finish_msgLen, decodeWrites, hm, BitVec.ofNat_toNat, BitVec.setWidth_eq]
  · rw [finish_msg, byteAt_decodeWrites_msg, byteAt_take hj]

end Sys2Proof.Machine
end

section
/-! Proofs of the cipher family (spec 43_cipher.md): ENCRYPT, DECRYPT, one after the other, and the keys under which
that restores the block. -/

namespace Sys2Proof.Machine

/-! ### What a completion keeps -/

theorem State.WF.exec {s t : State} (h : s.WF) {i : Instr} (he : exec i s = .next t) : t.WF := by
  rw [exec_eq_commit] at he
  cases he
  exact h.commit i

/-- With a key, a completion changes no key register (R142). -/
theorem exec_keyRegs {s t : State} (hk : s.keyValid = true) {i : Instr} (he : exec i s = .next t) :
    t.keyRegs = s.keyRegs := by
  rw [exec_eq_commit] at he
  cases he
  rcases commit_cases (commandBody i s) s with ⟨u, hu, e⟩ | ⟨c, -, e⟩ <;> rw [e]
  · show u.keyRegs = s.keyRegs
    exact commandBody_keyRegs_of_keyValid hk hu
  · rfl

/-! ### The modulus -/

/-- With a key, n is the product of two factors from 2 on (R140). -/
theorem State.KeyInv.kn_pos {s : State} (h : s.KeyInv) (hk : s.keyValid = true) : 0 < s.val .kn := by
  obtain ⟨hp, hq, hn, -⟩ := h.present hk
  show 0 < beNat s.kn
  rw [hn]
  exact Nat.mul_pos (by omega) (by omega)

/-- "The result always fits, since n < 256^B" (R170). -/
theorem val_setVal_mod_kn {s : State} (h : s.WF) (hi : s.KeyInv) (hk : s.keyValid = true) (x : BigReg) (v : Nat) :
    (s.setVal x (v % s.val .kn)).val x = v % s.val .kn :=
  val_setVal_of_lt_val h x .kn (Nat.mod_lt v (hi.kn_pos hk))

/-! ### The two commands -/

/-- B fits CT_LEN (R6). -/
theorem toNat_ofNat_B {s : State} (h : s.WF) : (BitVec.ofNat 32 s.B).toNat = s.B := by
  obtain ⟨-, -, hB, -⟩ := build_facts h.build
  exact (BitVec.toNat_ofNat ..).trans (Nat.mod_eq_of_lt (by rw [State.B]; omega))

/-- Settles O36: the outcomes are those of `encryptBody_cases`, and a remainder modulo n fits CT. -/
theorem encryptComputesTheCiphertext : Obligations.EncryptComputesTheCiphertext := by
  intro s h hi
  rcases encryptBody_cases s with ⟨hno, hb⟩ | ⟨hk, hb⟩
  · exact ⟨rfl, fun _ => exec_of_commandBody_error (i := .encrypt) hb,
      fun hk => absurd hk (Bool.eq_false_iff.1 hno)⟩
  · refine ⟨rfl, fun hno => absurd hk (Bool.eq_false_iff.1 hno), fun _ => ?_⟩
    exact ⟨_, exec_of_commandBody_ok (i := .encrypt) hb, rfl, length_toBE s.B _, val_setVal_mod_kn h hi hk .ct _,
      toNat_ofNat_B h⟩

/-- Settles O37: the outcomes are those of `decryptBody_cases`, and a remainder modulo n fits BLK. -/
theorem decryptComputesTheBlock : Obligations.DecryptComputesTheBlock := by
  intro s h hi
  rcases decryptBody_cases s with ⟨hno, hb⟩ | ⟨hk, hlen, hb⟩ | ⟨hk, hlen, hb⟩
  · have hnk : s.keyValid ≠ true := Bool.eq_false_iff.1 hno
    exact ⟨rfl, fun _ => exec_of_commandBody_error (i := .decrypt) hb, fun hk => absurd hk hnk,
      fun hk => absurd hk hnk⟩
  · exact ⟨rfl, fun hno => absurd hk (Bool.eq_false_iff.1 hno),
      fun _ _ => exec_of_commandBody_error (i := .decrypt) hb, fun _ heq => absurd heq hlen⟩
  · refine ⟨rfl, fun hno => absurd hk (Bool.eq_false_iff.1 hno), fun _ hne => absurd hlen hne, fun _ _ => ?_⟩
    exact ⟨_, exec_of_commandBody_ok (i := .decrypt) hb, rfl, length_toBE s.B _, val_setVal_mod_kn h hi hk .blk _⟩

/-! ### ENCRYPT, then DECRYPT -/

/-- DECRYPT of what ENCRYPT left, with any issue of a command word between them: the ciphertext is below n, so nothing
wraps, and the two powers make one (R172). -/
theorem exec_decrypt_after_encrypt {s t : State} (h : s.WF) (hi : s.KeyInv) (hk : s.keyValid = true)
    (he : exec .encrypt s = .next t) (w : Word) :
    ∃ u, exec .decrypt (issue w t) = .next u ∧ u.err = .none ∧ u.wrap = false ∧ u.blk.length = s.B ∧
      u.val .blk = s.val .blk ^ (s.val .ke * s.kd) % s.val .kn := by
  obtain ⟨-, -, henc⟩ := encryptComputesTheCiphertext s h hi
  obtain ⟨t', he', ht, -, hct, hlen⟩ := henc hk
  obtain rfl : t = t' := by rw [he] at he'; cases he'; rfl
  have hB : t.B = s.B := by rw [ht]
  have hkeys : t.keyRegs = s.keyRegs := exec_keyRegs hk he
  obtain ⟨-, -, -, hkn, -, hkd, hkv⟩ := (keyRegs_eq_iff s t).1 hkeys
  replace hkn : t.val .kn = s.val .kn := val_congr (x := .kn) hkn
  obtain ⟨-, -, -, hdec⟩ := decryptComputesTheBlock (issue w t) ((h.exec he).issue w) (hi.of_keyRegs_eq hkeys)
  obtain ⟨u, hexec, hu, hulen, hblk⟩ := hdec (hkv.trans hk) (hlen.trans hB.symm)
  rw [val_issue, val_issue, issue_kd, hct, hkn, hkd] at hblk
  have hlt : t.val .ct < t.val .kn := by rw [hct, hkn]; exact Nat.mod_lt _ (hi.kn_pos hk)
  have hwrap : u.wrap = decide ((issue w t).val .kn ≤ (issue w t).val .ct) := congrArg State.wrap hu
  refine ⟨u, hexec, congrArg State.err hu, ?_, hulen.trans hB, ?_⟩
  · rwa [hwrap, val_issue, val_issue, decide_eq_false_iff_not, Nat.not_le]
  · rw [hblk, ← Nat.pow_mod, ← pow_mul]

/-- B bytes are told by their integer (R11). -/
theorem blk_eq_iff_val_eq {s u : State} (h : s.WF) (hu : u.blk.length = s.B) : u.blk = s.blk ↔ u.val .blk = s.val .blk :=
  ⟨fun e => congrArg beNat e, fun e => beNat_injective (hu.trans h.blk.symm) e⟩

/-- Settles O46: a block below n does not wrap, and DECRYPT leaves m^(e*d) mod n in BLK. -/
theorem cipherRoundTripExactlyWhen : Obligations.CipherRoundTripExactlyWhen := by
  intro s h hi hk hlt
  obtain ⟨-, -, henc⟩ := encryptComputesTheCiphertext s h hi
  obtain ⟨t, he, ht, -⟩ := henc hk
  have hwrap : t.wrap = decide (s.val .kn ≤ s.val .blk) := congrArg State.wrap ht
  refine ⟨t, he, congrArg State.err ht, hwrap.trans (decide_eq_false (Nat.not_le.2 hlt)), fun w => ?_⟩
  obtain ⟨u, hd, herr, huwrap, hulen, hblk⟩ := exec_decrypt_after_encrypt h hi hk he w
  exact ⟨u, hd, herr, huwrap, by rw [blk_eq_iff_val_eq h hulen, hblk]⟩

/-! ### Distinct primes -/

/-- Fermat's little theorem for every base, one that the prime divides too. -/
theorem pow_succ_modEq_self {p k : Nat} (hp : p.Prime) (hk : p - 1 ∣ k) (m : Nat) : m ^ (k + 1) ≡ m [MOD p] := by
  by_cases hm : p ∣ m
  · have hzero : m ≡ 0 [MOD p] := Nat.modEq_zero_iff_dvd.2 hm
    have hpow : m ^ (k + 1) ≡ 0 [MOD p] := Nat.modEq_zero_iff_dvd.2 (dvd_pow hm k.succ_ne_zero)
    exact hpow.trans hzero.symm
  · obtain ⟨c, rfl⟩ := hk
    have hcop : m.Coprime p := ((hp.coprime_iff_not_dvd).2 hm).symm
    have hone : (m ^ (p - 1)) ^ c ≡ 1 ^ c [MOD p] := (Nat.ModEq.pow_card_sub_one_eq_one hp hcop).pow c
    rw [← pow_mul, one_pow] at hone
    simpa [pow_succ] using hone.mul_right m

/-- For distinct primes, an exponent that is 1 modulo phi = (p-1)*(q-1) leaves every integer as it is modulo p*q (R172).
Distinct primes have phi > 1, so such an exponent is not 0. -/
theorem pow_modEq_self_of_modEq_one {p q x : Nat} (hp : p.Prime) (hq : q.Prime) (hne : p ≠ q)
    (hx : x % ((p - 1) * (q - 1)) = 1 % ((p - 1) * (q - 1))) (m : Nat) : m ^ x ≡ m [MOD p * q] := by
  have hphi : (p - 1) * (q - 1) ≠ 1 := by
    have hp2 := hp.two_le
    have hq2 := hq.two_le
    rw [Ne, mul_eq_one]
    omega
  cases x with
  | zero => exact absurd (Nat.eq_one_of_dvd_one (Nat.modEq_zero_iff_dvd.1 hx.symm)) hphi
  | succ k =>
    have hk : (p - 1) * (q - 1) ∣ k := (Nat.modEq_iff_dvd' (Nat.le_add_left 1 k)).1 hx.symm
    exact (Nat.modEq_and_modEq_iff_modEq_mul ((Nat.coprime_primes hp hq).2 hne)).1
      ⟨pow_succ_modEq_self hp (dvd_of_mul_right_dvd hk) m, pow_succ_modEq_self hq (dvd_of_mul_left_dvd hk) m⟩

/-- Settles O47: `cipherRoundTripExactlyWhen`, whose condition holds for distinct primes. -/
theorem cipherRoundTripForDistinctPrimes : Obligations.CipherRoundTripForDistinctPrimes := by
  intro s h hi hk hlt hp hq hne
  obtain ⟨-, -, hn, hphi, -, -, hinv⟩ := hi.present hk
  obtain ⟨t, he, herr, -, hround⟩ := cipherRoundTripExactlyWhen s h hi hk hlt
  refine ⟨t, he, herr, fun w => ?_⟩
  obtain ⟨u, hd, huerr, -, hiff⟩ := hround w
  refine ⟨u, hd, huerr, hiff.2 ?_⟩
  have hexp : s.val .ke * s.kd % ((s.val .kp - 1) * (s.val .kq - 1)) = 1 % ((s.val .kp - 1) * (s.val .kq - 1)) := by
    rw [hphi, Nat.mul_comm] at hinv
    exact hinv
  have hpow : s.val .blk ^ (s.val .ke * s.kd) ≡ s.val .blk [MOD s.val .kn] := by
    have hmod := pow_modEq_self_of_modEq_one hp hq hne hexp (s.val .blk)
    rwa [show s.val .kp * s.val .kq = s.val .kn from hn.symm] at hmod
  exact Nat.ModEq.eq_of_lt_of_lt ((Nat.mod_modEq _ _).trans hpow) (Nat.mod_lt _ (hi.kn_pos hk)) hlt

/-! ### A block that begins 00 02 -/

/-- The two top bytes are 00 02 exactly when the integer is from 2*256^(n-2) up to 3*256^(n-2): the quotient by
256^(n-2) is the number the two bytes make. -/
theorem begins_00_02_iff {x : Buf} (h : 2 ≤ x.length) :
    (byteAt x 0 = 0x00#8 ∧ byteAt x 1 = 0x02#8) ↔
      2 * 256 ^ (x.length - 2) ≤ beNat x ∧ beNat x < 3 * 256 ^ (x.length - 2) := by
  match x, h with
  | a :: b :: y, _ =>
    have hpos : 0 < 256 ^ y.length := Nat.pos_of_ne_zero (pow_ne_zero _ (by decide))
    have hval : beNat (a :: b :: y) = 256 ^ y.length * (256 * a.toNat + b.toNat) + beNat y := by
      simp only [beNat, List.length_cons, pow_succ]
      ring
    have hdiv : beNat (a :: b :: y) / 256 ^ y.length = 256 * a.toNat + b.toNat := by
      rw [hval, Nat.mul_add_div hpos, Nat.div_eq_of_lt (beNat_lt y), Nat.add_zero]
    have hlen : (a :: b :: y).length - 2 = y.length := rfl
    rw [hlen, ← Nat.le_div_iff_mul_le hpos, ← Nat.div_lt_iff_lt_mul hpos, hdiv, byteAt_cons_zero, byteAt_cons_succ,
      byteAt_cons_zero]
    bv_omega

/-- CHECKPAD's bit as an interval of the decrypted integer (R190). -/
theorem oracleBit_eq_true_iff {s : State} (h : s.WF) (hi : s.KeyInv) :
    oracleBit s = true ↔ s.keyValid = true ∧ s.ctLen.toNat = s.B ∧
      2 * 256 ^ (s.B - 2) ≤ s.val .ct ^ s.kd % s.val .kn ∧ s.val .ct ^ s.kd % s.val .kn < 3 * 256 ^ (s.B - 2) := by
  obtain ⟨-, hB, -⟩ := build_facts h.build
  rw [oracleBit, modExp_eq, Bool.and_eq_true, Bool.and_eq_true, Bool.and_eq_true, beq_iff_eq, beq_iff_eq, beq_iff_eq,
    and_assoc]
  refine and_congr_right fun hk => and_congr_right fun _ => ?_
  have hfit : s.val .ct ^ s.kd % s.val .kn < 256 ^ s.B := (Nat.mod_lt _ (hi.kn_pos hk)).trans (val_lt h .kn)
  rw [begins_00_02_iff (by rw [length_toBE, State.B]; omega), length_toBE, beNat_toBE_of_lt hfit]

/-- Settles O50: a block that begins 00 02 is not below n, and every decrypted integer is. -/
theorem smallModulusAlwaysWraps : Obligations.SmallModulusAlwaysWraps := by
  intro s h hi hk hn
  obtain ⟨-, hB, -⟩ := build_facts h.build
  constructor
  · intro h0 h1
    obtain ⟨hge, -⟩ := (begins_00_02_iff (by rw [h.blk, State.B]; omega)).1 ⟨h0, h1⟩
    rw [h.blk] at hge
    obtain ⟨-, -, henc⟩ := encryptComputesTheCiphertext s h hi
    obtain ⟨t, he, ht, -⟩ := henc hk
    have hwrap : t.wrap = decide (s.val .kn ≤ s.val .blk) := congrArg State.wrap ht
    exact ⟨t, he, congrArg State.err ht, hwrap.trans (decide_eq_true (hn.trans hge))⟩
  · refine ⟨_, exec_of_commandBody_ok (i := .checkpad) rfl, Bool.eq_false_iff.2 fun hor => ?_⟩
    obtain ⟨-, -, hge, -⟩ := (oracleBit_eq_true_iff h hi).1 hor
    have hlt : s.val .ct ^ s.kd % s.val .kn < s.val .kn := Nat.mod_lt _ (hi.kn_pos hk)
    omega

end Sys2Proof.Machine
end

section
/-! Proofs of the oracle family (spec 44_oracle.md): CHECKPAD, its bit beside what DECRYPT would leave, and the
ciphertexts it accepts. -/

namespace Sys2Proof.Machine

/-! ### The command -/

/-- CHECKPAD never errs, and stages ORACLE alone (R190). -/
theorem exec_checkpad (s : State) : exec .checkpad s = .next (finish .none { s with oracle := oracleBit s }) :=
  exec_of_commandBody_ok (i := .checkpad) rfl

theorem exists_exec_checkpad_oracle_iff (s : State) :
    (∃ t, exec .checkpad s = .next t ∧ t.oracle = true) ↔ oracleBit s = true := by
  rw [exec_checkpad]
  constructor
  · rintro ⟨t, he, ht⟩
    cases he
    exact ht
  · exact fun h => ⟨_, rfl, h⟩

/-- Settles O38: the completion is `exec_checkpad`, its bit that of `oracleBit_eq_true_iff`. -/
theorem checkpadReportsOneBit : Obligations.CheckpadReportsOneBit := fun s h hi =>
  ⟨rfl, _, exec_checkpad s, rfl, oracleBit_eq_true_iff h hi⟩

/-! ### ENCRYPT, then CHECKPAD -/

/-- CHECKPAD answers 1 exactly where DECRYPT of the same state succeeds with a block that begins 00 02: the two run one
pipeline, and every failure of it is a 0 (R190). -/
theorem oracleBit_eq_true_iff_exec_decrypt {s u : State} (hu : exec .decrypt s = .next u) :
    oracleBit s = true ↔ u.err = .none ∧ byteAt u.blk 0 = 0x00#8 ∧ byteAt u.blk 1 = 0x02#8 := by
  rcases decryptBody_cases s with ⟨hno, hb⟩ | ⟨hk, hlen, hb⟩ | ⟨hk, hlen, hb⟩
  · rw [exec_of_commandBody_error (i := .decrypt) hb] at hu
    cases hu
    simp [oracleBit, hno]
  · rw [exec_of_commandBody_error (i := .decrypt) hb] at hu
    cases hu
    simp [oracleBit, hlen]
  · rw [exec_of_commandBody_ok (i := .decrypt) hb] at hu
    cases hu
    simp [oracleBit, hk, hlen, modExp_eq, State.setVal]

/-- Settles O48: the round trip restores the block (`cipherRoundTripExactlyWhen`), and CHECKPAD reports on the block that
DECRYPT would leave. -/
theorem oracleAcceptsEncryptedPadding : Obligations.OracleAcceptsEncryptedPadding := by
  intro s h hi hk hlt hround h0 h1
  obtain ⟨t, he, -, -, hdec⟩ := cipherRoundTripExactlyWhen s h hi hk hlt
  refine ⟨t, he, fun w => (exists_exec_checkpad_oracle_iff _).2 ?_⟩
  obtain ⟨u, hu, herr, -, hblk⟩ := hdec w
  rw [oracleBit_eq_true_iff_exec_decrypt hu, hblk.2 hround]
  exact ⟨herr, h0, h1⟩

/-! ### How many ciphertexts are accepted -/

/-- A function that permutes [0, n) sends as many of its points into an interval [a, b) of it as the interval has. -/
theorem ncard_lt_and_image_mem_Ico {f : Nat → Nat} {n a b : Nat} (hmaps : Set.MapsTo f (Set.Iio n) (Set.Iio n))
    (hinj : Set.InjOn f (Set.Iio n)) (hb : b ≤ n) : Set.ncard {c | c < n ∧ a ≤ f c ∧ f c < b} = b - a := by
  have hbij : Set.BijOn f (Set.Iio n) (Set.Iio n) := ((Set.finite_Iio n).injOn_iff_bijOn_of_mapsTo hmaps).1 hinj
  have hsub : Set.Ico a b ⊆ Set.Iio n := fun c hc => hc.2.trans_le hb
  rw [← Set.ncard_Ico_nat a b]
  exact (hbij.subset_right hsub).ncard_eq

/-- With c in CT, a key and CT_LEN = B, the oracle's bit is a condition on c^d mod n alone (R190). -/
theorem exists_exec_checkpad_setVal_ct_iff {s : State} (h : s.WF) (hi : s.KeyInv) (hk : s.keyValid = true)
    (hlen : s.ctLen.toNat = s.B) {c : Nat} (hc : c < s.val .kn) :
    (∃ t, exec .checkpad (s.setVal .ct c) = .next t ∧ t.oracle = true) ↔
      2 * 256 ^ (s.B - 2) ≤ c ^ s.kd % s.val .kn ∧ c ^ s.kd % s.val .kn < 3 * 256 ^ (s.B - 2) := by
  have hi' : (s.setVal .ct c).KeyInv := hi.of_keyRegs_eq rfl
  rw [exists_exec_checkpad_oracle_iff, oracleBit_eq_true_iff (h.setVal .ct c) hi', val_setVal_of_lt_val h .ct .kn hc]
  exact (and_iff_right hk).trans (and_iff_right hlen)

/-- Settles O49: the accepted ciphertexts are those that decryption, a permutation of [0, n), sends into the interval
from 2*256^(B-2) up to 3*256^(B-2). -/
theorem oracleAcceptsExactlyItsShare : Obligations.OracleAcceptsExactlyItsShare := by
  intro s h hi hk hlen hn hinj
  have hmaps : Set.MapsTo (fun c => c ^ s.kd % s.val .kn) (Set.Iio (s.val .kn)) (Set.Iio (s.val .kn)) :=
    fun c _ => Nat.mod_lt _ (hi.kn_pos hk)
  have hcard := ncard_lt_and_image_mem_Ico (a := 2 * 256 ^ (s.B - 2)) hmaps
    (fun c hc c' hc' heq => hinj c c' hc hc' heq) hn
  rw [Set.ext fun c => and_congr_right fun hc => exists_exec_checkpad_setVal_ct_iff h hi hk hlen hc]
  refine hcard.trans ?_
  omega

end Sys2Proof.Machine
end

section
/-! Proofs of the exceptions family (spec 60_exceptions.md): how a command completes, and what an error leaves. -/

namespace Sys2Proof.Machine

/-- A commit that ends with an error is the report of that error on the state before the command: every staged write is
discarded (R112, R202). -/
theorem commit_eq_finish_of_err_ne_none {r : Except Err State} {s : State} (h : (commit r s).err ≠ .none) :
    commit r s = finish (commit r s).err s := by
  rcases commit_cases r s with ⟨t, -, heq⟩ | ⟨c, -, heq⟩ <;> rw [heq] at h ⊢
  · exact absurd rfl h
  · rfl

/-- Settles O39: every command is one commit of its pseudocode (`exec_eq_commit`), which ends idle and, with an error,
discards what was staged. -/
theorem everyCommandCompletesPrecisely : Obligations.EveryCommandCompletesPrecisely := fun i s =>
  have ⟨hbusy, hdone⟩ := commit_idle (commandBody i s) s
  ⟨_, exec_eq_commit i s, hbusy, hdone, commit_eq_finish_of_err_ne_none⟩

end Sys2Proof.Machine
end

section
/-! Proofs of the reset and hazards family (spec 70_reset_and_hazards.md): how a run ends, what makes an idle block busy
again, the hazard rule, and the accesses a reset drops. -/

namespace Sys2Proof.Machine

/-! ### How many steps are left -/

/-- A bound on the steps to the end of the run from BUSY and the pending events, the ENGINE's last turn included. It is
finer than `Event.cost` in one place, where it knows BUSY: after the ENGINE's turn a POLL loop reads only once. -/
def stepsLeft (busy : Bool) : List Event → Nat
  | [] => busy.toNat
  | .engine :: es => stepsLeft false es + 1
  | .access _ :: es | .reset _ :: es => (es.map Event.cost).sum + 2
  | .poll _ gaps :: es => (if busy then gaps.length + 3 else 1) + (es.map Event.cost).sum + 1

theorem stepsLeft_le (busy : Bool) (es : List Event) : stepsLeft busy es ≤ (es.map Event.cost).sum + 1 := by
  induction es generalizing busy with
  | nil => exact Bool.toNat_le busy
  | cons e es ih =>
    rw [List.map_cons, List.sum_cons]
    cases e with
    | engine =>
      have := ih false
      simp only [stepsLeft, Event.cost]
      omega
    | access a | reset lost =>
      simp only [stepsLeft, Event.cost]
      omega
    | poll h gaps =>
      simp only [stepsLeft, Event.cost]
      split_ifs <;> omega

theorem quiet_of_stepsLeft_eq_zero {s : State} (h : stepsLeft s.busy s.host.pending = 0) : Quiet s := by
  unfold Quiet
  cases hp : s.host.pending with
  | nil =>
    rw [hp] at h
    exact ⟨rfl, Bool.toNat_eq_zero.1 h⟩
  | cons e es =>
    rw [hp] at h
    cases e <;> cases h

theorem afterOthers_perm (h : Nat) (next : Event) (g : Nat) (es : List Event) :
    (afterOthers h next g es).Perm (next :: es) := by
  obtain ⟨k, -, heq, -, -⟩ := afterOthers_eq h next g es
  rw [heq]
  exact List.perm_middle.trans (by rw [List.take_append_drop])

/-- A read that sees BUSY = 1 is one step of the loop: it uses up a gap, or with none left brings the ENGINE's turn. -/
theorem stepsLeft_pollAgain_lt (h : Nat) (gaps : List Nat) (es : List Event) :
    stepsLeft true (pollAgain h gaps es) < stepsLeft true (.poll h gaps :: es) := by
  cases gaps with
  | nil =>
    simp only [pollAgain, stepsLeft, List.length_nil, if_true, Bool.false_eq_true, if_false]
    omega
  | cons g gs =>
    have hcost := ((afterOthers_perm h (.poll h gs) g es).map Event.cost).sum_eq
    have hle := stepsLeft_le true (pollAgain h (g :: gs) es)
    rw [pollAgain, hcost] at hle
    simp only [List.map_cons, List.sum_cons, Event.cost] at hle
    simp only [pollAgain, stepsLeft, List.length_cons, if_true]
    omega

/-! ### Every step brings the end nearer -/

/-- The ENGINE's turn always leaves the block idle (R112). -/
theorem engineMove_busy {s t : State} (h : engineMove s = .next t) : t.busy = false := by
  rcases engineMove_cases s with ⟨hb, e⟩ | ⟨-, i, -, e⟩ | ⟨-, d, -, e⟩ <;> rw [e] at h <;> cases h
  · exact hb
  · exact (commit_idle _ s).1
  · rfl

theorem stepsLeft_of_engineMove {s t : State} (h : engineMove s = .next t) :
    stepsLeft t.busy t.host.pending = stepsLeft false s.host.pending := by
  rw [engineMove_busy h, engineMove_host h]

theorem stepsLeft_le_of_step {s t : State} (hs : step s = .next t) :
    stepsLeft t.busy t.host.pending ≤ stepsLeft s.busy s.host.pending - 1 := by
  rcases step_cases s with ⟨-, e⟩ | ⟨-, hp, e⟩ | ⟨-, es, hp, e⟩ | ⟨-, a, es, hp, e⟩ | ⟨-, l, es, hp, e⟩ |
    ⟨-, h, gaps, es, hp, e⟩ <;> rw [e] at hs
  · cases hs
  · rw [stepsLeft_of_engineMove hs, hp]
    exact Nat.zero_le _
  · rw [stepsLeft_of_engineMove hs, hp]
    exact Nat.le_refl _
  · rw [hostAccess_pending hs, hp]
    exact stepsLeft_le _ es
  · cases hs
    rw [hp]
    exact stepsLeft_le _ es
  · cases hs
    rw [pollRound_eq, hp]
    cases hb : s.busy with
    | true =>
      have := stepsLeft_pollAgain_lt h gaps es
      simp only [withPending_busy, hb, withPending_host, if_true]
      omega
    | false =>
      have := stepsLeft_le false es
      simp only [withPending_busy, hb, withPending_host, stepsLeft, Bool.false_eq_true, if_false]
      omega

/-- By induction on the number of steps, where the run goes on with empty steps once it is at its end (log 6). -/
theorem exists_quiet_of_stepsLeft_le {s : State} {n : Nat} (hw : s.build.wf = true) (hc : InContract s)
    (hn : stepsLeft s.busy s.host.pending ≤ n) : ∃ t, RunsTo n s t ∧ Quiet t := by
  induction n generalizing s with
  | zero => exact ⟨s, (runsTo_zero s s).2 rfl, quiet_of_stepsLeft_eq_zero (Nat.le_zero.1 hn)⟩
  | succ n ih =>
    obtain ⟨u, hu⟩ := step_next_of_inContract hw hc
    have hleft : stepsLeft u.busy u.host.pending ≤ n := (stepsLeft_le_of_step hu).trans (Nat.sub_le_of_le_add hn)
    obtain ⟨t, ht, hq⟩ := ih (step_build hu ▸ hw) (step_keeps_inContract hc hu) hleft
    exact ⟨t, (runsTo_succ n s t).2 ⟨u, hu, ht⟩, hq⟩

theorem runOver_of_quiet {s : State} (hq : Quiet s) (h : Nat) : RunOver h s := by
  obtain ⟨hp, hb⟩ := hq
  refine ⟨fun e he => ?_, hb⟩
  rw [hp] at he
  cases he

/-- Settles O52: the pending events' cost and one step are at least the steps left. -/
theorem inContractRunEnds : Obligations.InContractRunEnds := by
  intro s hw hc
  obtain ⟨t, ht, hq⟩ := exists_quiet_of_stepsLeft_le hw hc (stepsLeft_le s.busy s.host.pending)
  exact ⟨t, ht, hq, runOver_of_quiet hq⟩

/-! ### The end of one host's program -/

theorem runOver_of_pending_subset {h : Nat} {s t : State} (ho : RunOver h s) (hp : t.host.pending ⊆ s.host.pending)
    (hb : t.busy = false) : RunOver h t := by
  obtain ⟨hall, -⟩ := ho
  exact ⟨fun e he => hall e (hp he), hb⟩

/-- The only access that makes an idle block busy is a write to CMD (R111). -/
theorem hostAccess_idle {a : Access} {s t : State} (hb : s.busy = false) (h : hostAccess a s = .next t) :
    t.busy = false ∨ a.routed s.build = true ∧ a.wf s.build = true ∧
      ∃ v, a.op = .write v ∧ a.offset s.build = 0x0000 ∧ t = issue v s := by
  rcases hostAccess_cases a s with ⟨-, e⟩ | ⟨-, -, e⟩ | ⟨-, -, -, e⟩ | ⟨hr, hw, v, hop, e⟩ <;> rw [e] at h <;> cases h
  · exact .inl hb
  · exact .inl hb
  · rcases memWrite_cases s (a.offset s.build) v with e | ⟨-, hoff, e⟩ | ⟨-, -, e⟩ | ⟨-, -, e⟩ | ⟨-, x, -, -, -, e⟩ <;>
      rw [e]
    · exact .inl hb
    · exact .inr ⟨hr, hw, v, hop, hoff, rfl⟩
    · exact .inl hb
    · exact .inl hb
    · exact .inl ((setBuf_busy ..).trans hb)

/-- A step from the end of a host's run takes an event off the list and leaves the block idle, or is another host's
write to CMD. -/
theorem runOver_or_issue_of_step {h : Nat} {s t : State} (ho : RunOver h s) (hs : step s = .next t) :
    RunOver h t ∨ ∃ a es v, AccessTurn s a es ∧ a.host ≠ h ∧ a.op = .write v ∧ a.offset s.build = 0x0000 ∧
      t = issue v (withPending s es) := by
  have ⟨hall, hb⟩ := ho
  rcases step_cases s with ⟨-, e⟩ | ⟨-, -, e⟩ | ⟨-, es, hp, e⟩ | ⟨-, a, es, hp, e⟩ | ⟨-, l, es, hp, e⟩ |
    ⟨-, h', gaps, es, hp, e⟩ <;> rw [e] at hs
  · cases hs
  · rw [engineMove_idle hb] at hs
    cases hs
    exact .inl ho
  · rw [engineMove_idle (s := withPending s es) hb] at hs
    cases hs
    exact .inl (runOver_of_pending_subset ho (hp ▸ List.subset_cons_self _ es) hb)
  · rcases hostAccess_idle (s := withPending s es) hb hs with hidle | ⟨hr, hw, v, hop, hoff, rfl⟩
    · refine .inl (runOver_of_pending_subset ho ?_ hidle)
      rw [hostAccess_pending hs, hp]
      exact List.subset_cons_self _ es
    · have hother : (Event.access a).ofHost h = false := hall _ (hp ▸ List.mem_cons_self)
      exact .inr ⟨a, es, v, ⟨hp, hr, hw⟩, beq_eq_false_iff_ne.1 hother, hop, hoff, rfl⟩
  · cases hs
    exact .inl (runOver_of_pending_subset ho (hp ▸ List.subset_cons_self _ es) rfl)
  · cases hs
    rw [pollRound_eq, withPending_busy, hb]
    exact .inl (runOver_of_pending_subset ho (hp ▸ List.subset_cons_self _ es) rfl)

/-- Settles O53: the first two clauses are the two halves of `RunOver`, the third is by the agent whose move the step
is. -/
theorem runOverStaysUntilAnotherIssue : Obligations.RunOverStaysUntilAnotherIssue := by
  refine ⟨?_, ?_, fun _ _ _ => runOver_or_issue_of_step⟩
  · rintro h s hb ⟨-, hidle⟩
    exact Bool.noConfusion (hb.symm.trans hidle)
  · rintro h s e he hown ⟨hall, -⟩
    exact Bool.noConfusion (hown.symm.trans (hall e he))

/-! ### The hazard rule, and the accesses a reset drops -/

/-- The hazard rule allows no write to the block while BUSY = 1 (log 23). -/
theorem idle_of_hazardFree_write {s : State} {a : Access} {v : Word} (hr : a.routed s.build = true)
    (hop : a.op = .write v) (hf : HazardFree s (.access a)) : s.busy = false := by
  rw [← Bool.not_eq_true]
  intro hb
  obtain ⟨hread, -⟩ := hf hb hr
  rw [hop] at hread
  cases hread

/-- Settles O27: the write finds the block idle, so clearing BUSY changes nothing. -/
theorem hazardFreeWriteIsPerformed : Obligations.HazardFreeWriteIsPerformed := by
  intro s a es v hw ht hop hf
  have ⟨_, hr, _⟩ := ht
  rw [step_of_write hw ht hop, ← idle_of_hazardFree_write hr hop hf]
  rfl

/-- Settles O58: the step is `resetBlock` on the remaining events, and does not look at the lost accesses. -/
theorem resetDropsEveryAccess : Obligations.ResetDropsEveryAccess :=
  fun s _ es hw hp =>
    ⟨_, step_of_reset hw hp, fun lost' => step_of_reset (s := withPending s (.reset lost' :: es)) hw rfl⟩

end Sys2Proof.Machine
end
